-- ==== Sys2Proof/Word.lean ====
section
/-! DEFINITION. The machine's words: the 32-bit operation and response word, the byte, and the 7-bit bus address. -/

namespace Sys2Proof

/-- The operation word and the response word are 32-bit values (R30, R81, R90). -/
abbrev Word := BitVec 32

/-- A byte is 8 bits (R8). -/
abbrev Byte := BitVec 8

/-- A 7-bit I2C target address (R6, R50). -/
abbrev Addr7 := BitVec 7

end Sys2Proof
end

