-- ==== Sys2Proof/Config.lean ====
section
/-! DEFINITION. The configuration record CFG (R6) with its legality, the values derived from it, and the free values
that the block's environment supplies (R11, R32, U3, U5, U6). -/

namespace Sys2Proof

/-- `CFG.CMD_FRAMING` (R6, R125): how the bytes of one controller command are grouped into command transactions. -/
inductive CmdFraming
  /-- an opcode and its arguments share one command transaction -/
  | perCommand
  /-- every command byte has a command transaction of its own -/
  | perByte
deriving DecidableEq, Repr

/-- The raw fields of the configuration record (R6).
`width`, `height` and `chunk` are mathematical integers in the rules, so they are natural numbers here.
Their ranges are checked by `Params.legal`. -/
structure Params where
  /-- `CFG.ADDR` -/
  addr : Addr7
  /-- `CFG.WIDTH`: visible columns, which is the number of bytes in a page -/
  width : Nat
  /-- `CFG.HEIGHT`: visible rows -/
  height : Nat
  /-- `CFG.COL_OFFSET`: the column address sent at the start of every page -/
  colOffset : Byte
  /-- `CFG.HMIRROR` -/
  hmirror : Bool
  /-- `CFG.VMIRROR` -/
  vmirror : Bool
  /-- `CFG.HAS_RESET`: a reset output line is present -/
  hasReset : Bool
  /-- `CFG.CHUNK`: data bytes in one data transaction, but for the last one of a page -/
  chunk : Nat
  /-- `CFG.CMD_FRAMING` -/
  framing : CmdFraming
deriving DecidableEq, Repr

/-- The legal ranges of R6: WIDTH 1..2047, HEIGHT a multiple of 8 in 8..128, CHUNK 1..16.
The other fields are legal at every value of their width. -/
def Params.legal (p : Params) : Bool :=
  decide (1 ≤ p.width) && decide (p.width ≤ 2047) &&
  decide (p.height % 8 = 0) && decide (8 ≤ p.height) && decide (p.height ≤ 128) &&
  decide (1 ≤ p.chunk) && decide (p.chunk ≤ 16)

/-- `CFG`: the parameters together with the proof that they are legal.
"A model takes `CFG` as a parameter that carries a proof of these ranges, so an illegal `CFG` has no model" (R282). -/
structure Cfg extends Params where
  /-- every field is in its legal range -/
  isLegal : toParams.legal = true
deriving DecidableEq, Repr

/-- A parameter record outside the legal ranges is refused: it has no block (R6, R282, U13). -/
def Params.toCfg? (p : Params) : Option Cfg :=
  if h : p.legal = true then some { toParams := p, isLegal := h } else none

/-- `PAGES = CFG.HEIGHT / 8` (R6). -/
def Cfg.pages (c : Cfg) : Nat := c.height / 8

/-- `FB_SIZE = CFG.WIDTH * PAGES` (R6, R28). -/
def Cfg.fbSize (c : Cfg) : Nat := c.width * c.pages

/-- The parameters of the source's flush example (R216), at the defaults of the test vectors.
DESIGN CHOICE, unsafe (log entry 1): the spec fixes no CFG; `State.reset` needs one. -/
def Params.reference : Params :=
  { addr := 0x3C, width := 128, height := 64, colOffset := 0x02, hmirror := false, vmirror := false,
    hasReset := false, chunk := 16, framing := .perCommand }

/-- The configuration that `State.reset` carries (log entry 1). -/
def Cfg.reference : Cfg := { toParams := Params.reference, isLegal := by decide }

/-- What the bus collaborator answers to one bus write (R11). -/
inductive BusResult
  | ack
  | fail
deriving DecidableEq, Repr, Inhabited

/-- FREE VALUE (U5, D16): the arbiter's answer to the n-th `LockTry`. -/
opaque Config.freeLockGrant : Nat → Bool

/-- FREE VALUE (U3, D31): the bus collaborator's answer to the n-th `BusWrite`. -/
opaque Config.freeBusResult : Nat → BusResult

/-- FREE VALUE (U9, D18): whether a host lock probe of the given timeout finds at its n-th look at the clock that the
timeout has elapsed. -/
opaque Config.freeElapsed : (timeout : Nat) → (n : Nat) → Bool

/-- OPEN PARAMETER (U9, D17): `PROBE_TIMEOUT` in milliseconds, which the spec gives only as "about 1 second". -/
opaque Config.probeTimeout : Nat

end Sys2Proof
end

