-- ==== Sys2Proof/Syntax.lean ====
section
/-! DEFINITION. The instructions: one constructor of `Instr` for each row of spec/opcode_table.json. -/

namespace Sys2Proof

/-- A 5×5 row-major glyph (R231): `rows[r][c]` is true where the character is '1'; row 0 is the top one and column 0
the leftmost one. -/
structure GlyphR where
  rows : Vector (Vector Bool 5) 5
deriving DecidableEq, Repr

/-- A 5×7 column-major glyph (R232): `cols[c]` is column c, and bit r of it is row r, bit 0 at the top. -/
structure GlyphC where
  cols : Vector Byte 5
deriving DecidableEq, Repr

/-- A glyph of either format. -/
inductive Glyph
  | rowMajor (g : GlyphR)
  | colMajor (g : GlyphC)
deriving DecidableEq, Repr

/-- A font (R234, R235): a mapping from characters to glyphs of one format.
The bitmaps are not in the source, so a font is an operand (U10). -/
inductive Font
  | rowMajor (entries : List (Char × GlyphR))
  | colMajor (entries : List (Char × GlyphC))
deriving DecidableEq, Repr

/-- The controller commands the block sends (R94), with their arguments and immediates as operands. -/
inductive Command
  | displayOff
  | setClkdiv (arg : Byte)
  | setMux (arg : Byte)
  | setOffset (arg : Byte)
  | setStartline0
  | chargePump (arg : Byte)
  | segRemap (h : Bool)
  | comScan (v : Bool)
  | comPins (arg : Byte)
  | contrast (arg : Byte)
  | precharge (arg : Byte)
  | vcomh (arg : Byte)
  | entireOff
  | normal
  | displayOn
  | setPage (p : BitVec 4)
  | setColLo (l : BitVec 4)
  | setColHi (u : BitVec 4)
deriving DecidableEq, Repr

/-- The micro-operations that may stand in the body of a lock group (R128).
The lock micro-operations are not among them: LOCK_ACQUIRE needs `LOCK_HELD = 0` (R120), and only WITH_LOCK itself
releases the lock. -/
inductive MicroOp
  /-- EMIT_CMD of one command of R94 -/
  | command (c : Command)
  | emitCmd (c : List Byte)
  | txCmd (cmd : List Byte)
  | txData (chunk : List Byte)
  | wait (ms : Nat)
  | rstDirOut
  | rstSet (level : Bool)
deriving DecidableEq, Repr

/-- The host's pseudo-operations (R230 to R237). -/
inductive PseudoOp
  | drawGlyphR (x y : Int) (g : GlyphR)
  | drawGlyphC (x y : Int) (g : GlyphC)
  | drawText (text : List Char) (x y : Int) (font : Font) (spacing : Int)
  | lookup (font : Font) (ch : Char)
  | centerX (w : Nat)
  | probeLock (timeout : Nat)
deriving DecidableEq, Repr

/-- One constructor for each row of spec/opcode_table.json. -/
inductive Instr
  -- host operation words (R82)
  | init
  | setpix (x y : BitVec 12) (v : Bool)
  | fill (v : Bool)
  | showFrame
  | rdfb (index : BitVec 16)
  | rdstat
  /-- every word that no other row matches (R88); it keeps the word -/
  | illegal (word : Word)
  -- the two transaction formats (R92), each with the bytes that follow its control byte
  | ctrlCmd (commandBytes : List Byte)
  | ctrlData (chunk : List Byte)
  -- controller commands (R94)
  | displayOff
  | setClkdiv (arg : Byte)
  | setMux (arg : Byte)
  | setOffset (arg : Byte)
  | setStartline0
  | chargePump (arg : Byte)
  | segRemap (h : Bool)
  | comScan (v : Bool)
  | comPins (arg : Byte)
  | contrast (arg : Byte)
  | precharge (arg : Byte)
  | vcomh (arg : Byte)
  | entireOff
  | normal
  | displayOn
  | setPage (p : BitVec 4)
  | setColLo (l : BitVec 4)
  | setColHi (u : BitVec 4)
  -- micro-operations of the transactor (R120 to R128)
  | lockAcquire
  | lockRelease
  | txCmd (cmd : List Byte)
  | txData (chunk : List Byte)
  | emitCmd (c : List Byte)
  | wait (ms : Nat)
  | rstDirOut
  | rstSet (level : Bool)
  | withLock (body : List MicroOp)
  -- host pseudo-operations (R230 to R237)
  | drawGlyphR (x y : Int) (g : GlyphR)
  | drawGlyphC (x y : Int) (g : GlyphC)
  | drawText (text : List Char) (x y : Int) (font : Font) (spacing : Int)
  | lookup (font : Font) (ch : Char)
  | centerX (w : Nat)
  | probeLock (timeout : Nat)
deriving DecidableEq, Repr

/-- The row a controller command is an instance of. -/
def Command.toInstr : Command → Instr
  | .displayOff => .displayOff
  | .setClkdiv a => .setClkdiv a
  | .setMux a => .setMux a
  | .setOffset a => .setOffset a
  | .setStartline0 => .setStartline0
  | .chargePump a => .chargePump a
  | .segRemap h => .segRemap h
  | .comScan v => .comScan v
  | .comPins a => .comPins a
  | .contrast a => .contrast a
  | .precharge a => .precharge a
  | .vcomh a => .vcomh a
  | .entireOff => .entireOff
  | .normal => .normal
  | .displayOn => .displayOn
  | .setPage p => .setPage p
  | .setColLo l => .setColLo l
  | .setColHi u => .setColHi u

/-- The row a micro-operation of a lock group is an instance of. -/
def MicroOp.toInstr : MicroOp → Instr
  | .command c => c.toInstr
  | .emitCmd c => .emitCmd c
  | .txCmd cmd => .txCmd cmd
  | .txData chunk => .txData chunk
  | .wait ms => .wait ms
  | .rstDirOut => .rstDirOut
  | .rstSet l => .rstSet l

/-- The row a host pseudo-operation is an instance of. -/
def PseudoOp.toInstr : PseudoOp → Instr
  | .drawGlyphR x y g => .drawGlyphR x y g
  | .drawGlyphC x y g => .drawGlyphC x y g
  | .drawText t x y f sp => .drawText t x y f sp
  | .lookup f ch => .lookup f ch
  | .centerX w => .centerX w
  | .probeLock t => .probeLock t

end Sys2Proof
end

