-- ==== Sys2Proof/WellFormed.lean ====
section
/-! DEFINITION. Which instructions are well formed: operands inside the domain their rule gives, and, for a controller
command, the argument the block sends under its configuration (R94). -/

namespace Sys2Proof

/-- R94, column "args": how many argument bytes follow an opcode byte inside its command, for the opcodes the block
sends. -/
def opcodeArgs (b : Byte) : Option Nat :=
  if b.extractLsb' 4 4 = 0x0#4 then some 0                          -- SET_COL_LO
  else if b.extractLsb' 4 4 = 0x1#4 then some 0                     -- SET_COL_HI
  else if b.extractLsb' 4 4 = 0xB#4 then some 0                     -- SET_PAGE
  else if b = 0xA0 ∨ b = 0xA1 then some 0                           -- SEG_REMAP
  else if b = 0xC0 ∨ b = 0xC8 then some 0                           -- COM_SCAN
  else if b = 0xAE ∨ b = 0x40 ∨ b = 0xA4 ∨ b = 0xA6 ∨ b = 0xAF then some 0
  else if b = 0xD5 ∨ b = 0xA8 ∨ b = 0xD3 ∨ b = 0xAD ∨ b = 0xDA ∨ b = 0x81 ∨ b = 0xD9 ∨ b = 0xDB then some 1
  else none

/-- R88: an operation word is illegal when (a) its OPC is 0x0 or 0x7..0xF, or (b) a bit that its format marks
"must be 0" is 1 (R83 to R86). -/
def wordIllegal (w : Word) : Bool :=
  let opc := (w.extractLsb' 28 4).toNat
  opc == 0 || decide (7 ≤ opc) ||
  ((opc == 1 || opc == 4 || opc == 6) && w.extractLsb' 0 28 != 0) ||
  (opc == 2 && w.extractLsb' 24 3 != 0) ||
  (opc == 3 && w.extractLsb' 0 27 != 0) ||
  (opc == 5 && w.extractLsb' 16 12 != 0)

/-- R235, U11: a font holds an entry for its own default character, ' ' for a row-major font and '?' for a
column-major one. -/
def Font.hasDefault : Font → Bool
  | .rowMajor entries => (entries.lookup ' ').isSome
  | .colMajor entries => (entries.lookup '?').isSome

/-- R94, R95: the argument or immediate of a controller command is the one the block sends under this configuration. -/
def Command.wellFormed (c : Cfg) : Command → Bool
  | .setClkdiv a => a == 0x80
  | .setMux a => a == BitVec.ofNat 8 (c.height - 1)
  | .setOffset a => a == 0x00
  | .chargePump a => a == 0x8B
  | .segRemap h => h == c.hmirror
  | .comScan v => v == c.vmirror
  | .comPins a => a == 0x12
  | .contrast a => a == 0x7F
  | .precharge a => a == 0xF1
  | .vcomh a => a == 0x40
  | .setPage p => decide (p.toNat < c.pages)
  | .setColLo l => l == c.colOffset.extractLsb' 0 4
  | .setColHi u => u == c.colOffset.extractLsb' 4 4
  | .displayOff | .setStartline0 | .entireOff | .normal | .displayOn => true

/-- R92, R122: a command transaction has at least one command byte. -/
def commandBytesOk (cmd : List Byte) : Bool := !cmd.isEmpty

/-- R92, R123: a data transaction has 1 to 16 data bytes. -/
def chunkOk (chunk : List Byte) : Bool := decide (1 ≤ chunk.length) && decide (chunk.length ≤ 16)

/-- R125: one controller command is its opcode byte followed by as many argument bytes as R94 gives it. -/
def oneCommand : List Byte → Bool
  | [b] => opcodeArgs b == some 0
  | [b, _] => opcodeArgs b == some 1
  | _ => false

/-- The operand domains of R122, R123, R125, R126 and R127. -/
def MicroOp.wellFormed (c : Cfg) : MicroOp → Bool
  | .command k => k.wellFormed c
  | .emitCmd b => oneCommand b
  | .txCmd cmd => commandBytesOk cmd
  | .txData chunk => chunkOk chunk
  | .wait ms => decide (1 ≤ ms)
  | .rstDirOut => c.hasReset
  | .rstSet _ => c.hasReset

/-- R235: a pseudo-operation that looks glyphs up needs a font with its default glyph. -/
def PseudoOp.wellFormed : PseudoOp → Bool
  | .drawText _ _ _ font _ => font.hasDefault
  | .lookup font _ => font.hasDefault
  | .drawGlyphR _ _ _ | .drawGlyphC _ _ _ | .centerX _ | .probeLock _ => true

/-- An instruction whose operands are in the domain its rule gives, under the configuration `c`. -/
def Instr.wellFormed (c : Cfg) : Instr → Bool
  | .init | .setpix _ _ _ | .fill _ | .showFrame | .rdfb _ | .rdstat => true
  | .illegal w => wordIllegal w
  | .ctrlCmd cmd => commandBytesOk cmd
  | .ctrlData chunk => chunkOk chunk
  | .displayOff => Command.wellFormed c .displayOff
  | .setClkdiv a => Command.wellFormed c (.setClkdiv a)
  | .setMux a => Command.wellFormed c (.setMux a)
  | .setOffset a => Command.wellFormed c (.setOffset a)
  | .setStartline0 => Command.wellFormed c .setStartline0
  | .chargePump a => Command.wellFormed c (.chargePump a)
  | .segRemap h => Command.wellFormed c (.segRemap h)
  | .comScan v => Command.wellFormed c (.comScan v)
  | .comPins a => Command.wellFormed c (.comPins a)
  | .contrast a => Command.wellFormed c (.contrast a)
  | .precharge a => Command.wellFormed c (.precharge a)
  | .vcomh a => Command.wellFormed c (.vcomh a)
  | .entireOff => Command.wellFormed c .entireOff
  | .normal => Command.wellFormed c .normal
  | .displayOn => Command.wellFormed c .displayOn
  | .setPage p => Command.wellFormed c (.setPage p)
  | .setColLo l => Command.wellFormed c (.setColLo l)
  | .setColHi u => Command.wellFormed c (.setColHi u)
  | .lockAcquire | .lockRelease => true
  | .txCmd cmd => commandBytesOk cmd
  | .txData chunk => chunkOk chunk
  | .emitCmd b => oneCommand b
  | .wait ms => decide (1 ≤ ms)
  | .rstDirOut => c.hasReset
  | .rstSet _ => c.hasReset
  | .withLock body => body.all (MicroOp.wellFormed c)
  | .drawText _ _ _ font _ => font.hasDefault
  | .lookup font _ => font.hasDefault
  | .drawGlyphR _ _ _ | .drawGlyphC _ _ _ | .centerX _ | .probeLock _ => true

/-- The operands of an encoded instruction lie in what its encoding admits (R88, R92), whatever the configuration:
every value of every field, and the byte lists of the two transaction formats inside their length bounds. -/
def Instr.encodable : Instr → Bool
  | .illegal w => wordIllegal w
  | .ctrlCmd cmd => commandBytesOk cmd
  | .ctrlData chunk => chunkOk chunk
  | _ => true

end Sys2Proof
end

