-- ==== Sys2Proof/Decode.lean ====
section
/-! DEFINITION. Decoding, total on any word and any byte list and rejecting by name; after it the encoder, written from
the same tables (R80 to R98); then the assembler's operand check (R98). -/

namespace Sys2Proof

/-- An encoded instruction as the hardware carries it: an operation word on the host port (R81), one whole bus
transaction (R92), or the bytes of one controller command inside a command transaction (R94). -/
inductive Encoding
  | opWord (w : Word)
  | transaction (bytes : List Byte)
  | command (bytes : List Byte)
deriving DecidableEq, Repr

/-- Why a byte list is no instruction. -/
inductive DecodeError
  /-- a transaction without bytes -/
  | emptyTransaction
  /-- the first byte of a transaction is neither 0x00 nor 0x40 (R92, R93) -/
  | unknownControlByte (b : Byte)
  /-- a control byte alone (R92 asks for at least one more) -/
  | emptyPayload
  /-- a data transaction with more than 16 data bytes (R92) -/
  | chunkTooLong (n : Nat)
  /-- a command without bytes -/
  | emptyCommand
  /-- an opcode byte the block never sends (R94) -/
  | unknownOpcode (b : Byte)
  /-- an opcode whose argument byte is not there (R94, R96) -/
  | missingArgument (b : Byte)
  /-- bytes after the end of one command -/
  | trailingBytes (n : Nat)
deriving DecidableEq, Repr

/-! ## Operand fields of an operation word (R81 to R87) -/

/-- `OPC`, bits [31:28] (R81). -/
def opcField (w : Word) : BitVec 4 := w.extractLsb' 28 4

/-- `V`, bit [27] of formats P and F (R84, R85). -/
def vField (w : Word) : Bool := w.getLsbD 27

/-- `X`, bits [11:0] of format P (R84). -/
def xField (w : Word) : BitVec 12 := w.extractLsb' 0 12

/-- `Y`, bits [23:12] of format P (R84). -/
def yField (w : Word) : BitVec 12 := w.extractLsb' 12 12

/-- `INDEX`, bits [15:0] of format I (R86). -/
def indexField (w : Word) : BitVec 16 := w.extractLsb' 0 16

/-- Format Z without a reserved bit set (R83). -/
def formatZ (w : Word) : Bool := w.extractLsb' 0 28 == 0

/-- Format P without a reserved bit set (R84). -/
def formatP (w : Word) : Bool := w.extractLsb' 24 3 == 0

/-- Format F without a reserved bit set (R85). -/
def formatF (w : Word) : Bool := w.extractLsb' 0 27 == 0

/-- Format I without a reserved bit set (R86). -/
def formatI (w : Word) : Bool := w.extractLsb' 16 12 == 0

/-- Decoding an operation word: total, and a function of the word alone (R82, R88, R89). -/
def decodeWord (w : Word) : Instr :=
  if opcField w = 0x1 ∧ formatZ w then .init
  else if opcField w = 0x2 ∧ formatP w then .setpix (xField w) (yField w) (vField w)
  else if opcField w = 0x3 ∧ formatF w then .fill (vField w)
  else if opcField w = 0x4 ∧ formatZ w then .showFrame
  else if opcField w = 0x5 ∧ formatI w then .rdfb (indexField w)
  else if opcField w = 0x6 ∧ formatZ w then .rdstat
  else .illegal w

/-! ## Controller commands (R94 to R96) -/

/-- The command of an opcode byte without arguments. -/
def commandOfOpcode (b : Byte) : Option Command :=
  if b.extractLsb' 4 4 = 0x0#4 then some (.setColLo (b.extractLsb' 0 4))
  else if b.extractLsb' 4 4 = 0x1#4 then some (.setColHi (b.extractLsb' 0 4))
  else if b.extractLsb' 4 4 = 0xB#4 then some (.setPage (b.extractLsb' 0 4))
  else if b = 0xA0 then some (.segRemap false)
  else if b = 0xA1 then some (.segRemap true)
  else if b = 0xC0 then some (.comScan false)
  else if b = 0xC8 then some (.comScan true)
  else if b = 0xAE then some .displayOff
  else if b = 0x40 then some .setStartline0
  else if b = 0xA4 then some .entireOff
  else if b = 0xA6 then some .normal
  else if b = 0xAF then some .displayOn
  else none

/-- The command of an opcode byte that takes one argument. -/
def commandOfOpcodeArg (b a : Byte) : Option Command :=
  if b = 0xD5 then some (.setClkdiv a)
  else if b = 0xA8 then some (.setMux a)
  else if b = 0xD3 then some (.setOffset a)
  else if b = 0xAD then some (.chargePump a)
  else if b = 0xDA then some (.comPins a)
  else if b = 0x81 then some (.contrast a)
  else if b = 0xD9 then some (.precharge a)
  else if b = 0xDB then some (.vcomh a)
  else none

/-- R96: a command stream is read from left to right, each opcode consuming the argument count R94 gives it; a byte's
meaning depends on its position. -/
def decodeStream : List Byte → Except DecodeError (List Command)
  | [] => .ok []
  | [b] =>
    match commandOfOpcode b with
    | some k => .ok [k]
    | none => if (commandOfOpcodeArg b 0).isSome then .error (.missingArgument b) else .error (.unknownOpcode b)
  | b :: a :: rest =>
    match commandOfOpcode b with
    | some k => (decodeStream (a :: rest)).map (k :: ·)
    | none =>
      match commandOfOpcodeArg b a with
      | some k => (decodeStream rest).map (k :: ·)
      | none => .error (.unknownOpcode b)

/-- The bytes of exactly one controller command. -/
def decodeCommand (bytes : List Byte) : Except DecodeError Command :=
  match decodeStream bytes with
  | .error e => .error e
  | .ok [] => .error .emptyCommand
  | .ok [k] => .ok k
  | .ok (_ :: rest) => .error (.trailingBytes rest.length)

/-- The first byte of a transaction is its control byte: 0x00 for a command transaction, 0x40 for a data transaction
(R92, R96). -/
def decodeTransaction : List Byte → Except DecodeError Instr
  | [] => .error .emptyTransaction
  | b :: rest =>
    if b = 0x00 then
      if commandBytesOk rest then .ok (.ctrlCmd rest) else .error .emptyPayload
    else if b = 0x40 then
      if chunkOk rest then .ok (.ctrlData rest)
      else if rest.isEmpty then .error .emptyPayload else .error (.chunkTooLong rest.length)
    else .error (.unknownControlByte b)

/-- Decoding, total: an instruction, or a rejection by name. -/
def decode : Encoding → Except DecodeError Instr
  | .opWord w => .ok (decodeWord w)
  | .transaction bytes => decodeTransaction bytes
  | .command bytes => (decodeCommand bytes).map Command.toInstr

/-! ## The encoder -/

/-- Format Z (R83). -/
def wordZ (opc : BitVec 4) : Word := opc ++ 0#28

/-- Format P (R84): `0x20000000 | V<<27 | (Y & 0xFFF)<<12 | (X & 0xFFF)`. -/
def wordP (x y : BitVec 12) (v : Bool) : Word := 0x2#4 ++ BitVec.ofBool v ++ 0#3 ++ y ++ x

/-- Format F (R85). -/
def wordF (v : Bool) : Word := 0x3#4 ++ BitVec.ofBool v ++ 0#27

/-- Format I (R86): `0x50000000 | INDEX`. -/
def wordI (index : BitVec 16) : Word := 0x5#4 ++ 0#12 ++ index

/-- The bytes of a controller command: its opcode byte, then its argument (R94, R95). -/
def Command.bytes : Command → List Byte
  | .displayOff => [0xAE]
  | .setClkdiv a => [0xD5, a]
  | .setMux a => [0xA8, a]
  | .setOffset a => [0xD3, a]
  | .setStartline0 => [0x40]
  | .chargePump a => [0xAD, a]
  | .segRemap h => [if h then 0xA1 else 0xA0]
  | .comScan v => [if v then 0xC8 else 0xC0]
  | .comPins a => [0xDA, a]
  | .contrast a => [0x81, a]
  | .precharge a => [0xD9, a]
  | .vcomh a => [0xDB, a]
  | .entireOff => [0xA4]
  | .normal => [0xA6]
  | .displayOn => [0xAF]
  | .setPage p => [0xB#4 ++ p]
  | .setColLo l => [0x0#4 ++ l]
  | .setColHi u => [0x1#4 ++ u]

/-- The encoding of an instruction; a micro-operation and a pseudo-operation have none ("no operation word selects it",
R99 and the opcode table). -/
def encode : Instr → Option Encoding
  | .init => some (.opWord (wordZ 0x1))
  | .setpix x y v => some (.opWord (wordP x y v))
  | .fill v => some (.opWord (wordF v))
  | .showFrame => some (.opWord (wordZ 0x4))
  | .rdfb index => some (.opWord (wordI index))
  | .rdstat => some (.opWord (wordZ 0x6))
  | .illegal w => some (.opWord w)
  | .ctrlCmd cmd => some (.transaction (0x00 :: cmd))
  | .ctrlData chunk => some (.transaction (0x40 :: chunk))
  | .displayOff => some (.command (Command.bytes .displayOff))
  | .setClkdiv a => some (.command (Command.bytes (.setClkdiv a)))
  | .setMux a => some (.command (Command.bytes (.setMux a)))
  | .setOffset a => some (.command (Command.bytes (.setOffset a)))
  | .setStartline0 => some (.command (Command.bytes .setStartline0))
  | .chargePump a => some (.command (Command.bytes (.chargePump a)))
  | .segRemap h => some (.command (Command.bytes (.segRemap h)))
  | .comScan v => some (.command (Command.bytes (.comScan v)))
  | .comPins a => some (.command (Command.bytes (.comPins a)))
  | .contrast a => some (.command (Command.bytes (.contrast a)))
  | .precharge a => some (.command (Command.bytes (.precharge a)))
  | .vcomh a => some (.command (Command.bytes (.vcomh a)))
  | .entireOff => some (.command (Command.bytes .entireOff))
  | .normal => some (.command (Command.bytes .normal))
  | .displayOn => some (.command (Command.bytes .displayOn))
  | .setPage p => some (.command (Command.bytes (.setPage p)))
  | .setColLo l => some (.command (Command.bytes (.setColLo l)))
  | .setColHi u => some (.command (Command.bytes (.setColHi u)))
  | .lockAcquire | .lockRelease | .txCmd _ | .txData _ | .emitCmd _ | .wait _ | .rstDirOut | .rstSet _
  | .withLock _ => none
  | .drawGlyphR _ _ _ | .drawGlyphC _ _ _ | .drawText _ _ _ _ _ | .lookup _ _ | .centerX _ | .probeLock _ => none

/-! ## The assembler's operand check (R98) -/

/-- One line of operation syntax with its operands as written (R98). -/
inductive AsmLine
  | init
  | setpix (x y v : Int)
  | fill (v : Int)
  | showFrame
  | rdfb (index : Int)
  | rdstat
deriving DecidableEq, Repr

/-- A coordinate that fits the 12-bit two's-complement field (R87, R98). -/
def fitsS12 (n : Int) : Bool := decide (-2048 ≤ n) && decide (n ≤ 2047)

/-- A one-bit operand (R98). -/
def bitOperand (v : Int) : Option Bool := if v = 0 then some false else if v = 1 then some true else none

/-- R98: the word of one line; an operand that does not fit its field is an error and is never wrapped. -/
def assemble : AsmLine → Option Word
  | .init => some (wordZ 0x1)
  | .setpix x y v =>
    if fitsS12 x && fitsS12 y then (bitOperand v).map (wordP (BitVec.ofInt 12 x) (BitVec.ofInt 12 y)) else none
  | .fill v => (bitOperand v).map wordF
  | .showFrame => some (wordZ 0x4)
  | .rdfb index =>
    if decide (0 ≤ index) && decide (index ≤ 65535) then some (wordI (BitVec.ofInt 16 index)) else none
  | .rdstat => some (wordZ 0x6)

/-! ## The opcode table's words -/

/-- An 8-bit row of the opcode table. A control byte is read as the first byte of a transaction, followed by one zero
byte, the shortest payload R92 admits; every other byte is read as the opcode byte of a controller command, followed by
as many zero argument bytes as R94 gives it (log entry 2). -/
def decodeTableByte (b : Byte) : Except DecodeError Instr :=
  if b = 0x00 ∨ b = 0x40 then decode (.transaction [b, 0x00])
  else decode (.command (b :: List.replicate ((opcodeArgs b).getD 0) 0x00))

/-- The instruction the decoder reads from a word of spec/opcode_table.json. -/
def decodeTableWord (nbits w : Nat) : Option Instr :=
  if nbits = 32 then some (decodeWord (BitVec.ofNat 32 w))
  else if nbits = 8 then (decodeTableByte (BitVec.ofNat 8 w)).toOption
  else none

end Sys2Proof
end

