-- ==== Sys2Proof/Machine/State.lean ====
section
/-! DEFINITION. The state of the machine: every piece R22 lists, the environment's pending answers and the host's
program (R30, R32), the observation (R12), the reset state (R35, R280), and the reasons a step can stop. -/

namespace Sys2Proof.Machine

/-- `STATE` (R24). Its numbers are in Machine/Flags.lean. -/
inductive Life
  | uninit
  | initializing
  | ready
  | failed
deriving DecidableEq, Repr

/-- The response codes that are ever produced (R91). Their numbers are in Machine/Flags.lean. -/
inductive RespCode
  | ok
  | illegal
  | notReady
  | badState
  | busFail
  | range
deriving DecidableEq, Repr

/-- The events of the trace (R12). -/
inductive Event
  /-- ACQ: the lock was granted -/
  | acq
  /-- REL: the lock was released -/
  | rel
  /-- GDIR: the reset line was made an output -/
  | gdir
  /-- GSET(l): the reset line was driven to level l -/
  | gset (level : Bool)
  /-- WAIT(ms): a wait of at least ms milliseconds -/
  | wait (ms : Nat)
  /-- WR(a7, bytes, r): one bus write and its outcome -/
  | wr (target : Addr7) (bytes : List Byte) (result : BusResult)
deriving DecidableEq, Repr

/-- One micro-step of the sequencer (R21, R31). -/
inductive SeqItem
  /-- decode `REQ` and run the operation (R30, R89) -/
  | fetch
  /-- run one instruction: a micro-operation of the running operation -/
  | op (i : Instr)
  /-- INIT's `for i in 0 .. FB_SIZE-1: FB[i] <- 0x00` (R150, R156) -/
  | zeroFill
  /-- `WITH_LOCK(FLUSH_BODY)` of INIT and of SHOW (R150, R210) -/
  | flush
  /-- the operation's normal end (R150, R210) -/
  | complete
  /-- the operation's `catch BusFail` (R150, R210, R255) -/
  | catchFail
deriving DecidableEq, Repr

/-- One item of the host's program: an operation word to present, or a pseudo-operation to expand (R21, R230). -/
inductive HostItem
  | word (w : Word)
  | call (p : PseudoOp)
deriving DecidableEq, Repr

/-- The host's result of its last LOOKUP, CENTER_X or PROBE_LOCK (R235 to R237): the model's own field. -/
inductive HostValue
  | nothing
  | glyph (g : Glyph)
  | number (n : Int)
  /-- whether the probe got the lock before its timeout -/
  | probe (granted : Bool)
deriving DecidableEq, Repr

/-- The answers of the outside agents (R11, R32): what they have decided to answer next, and how often they have been
asked. When a list is empty the answer is the free value of Config at the counter (log entry 3). The model's own
fields. -/
structure Env where
  lockAnswers : List Bool
  lockDraws : Nat
  busAnswers : List BusResult
  busDraws : Nat
  clockAnswers : List Bool
  clockDraws : Nat
deriving DecidableEq, Repr

/-- The framebuffer's contents (R28): pairs of index and byte, the indices strictly rising. An index that is not listed
has not been written since power-on; its byte is unspecified (R35, D14), and reading it is a fault (log entry 4). -/
abbrev Memory := List Host.Cell

/-- The whole state. -/
structure State where
  /-- `CFG` (R6, R22, R23) -/
  cfg : Cfg
  /-- `STATE` (R24) -/
  life : Life
  /-- `LOCK_HELD` (R26) -/
  lockHeld : Bool
  /-- `RST_DRIVEN` (R27) -/
  rstDriven : Bool
  /-- `RST_LEVEL` (R27) -/
  rstLevel : Bool
  /-- `FB` (R28) -/
  fb : Memory
  /-- `BUSY` (R30) -/
  busy : Bool
  /-- `REQ` (R30) -/
  req : Word
  /-- `RESP` (R30, R90) -/
  resp : Word
  /-- `SEQ` (R31): the micro-steps of the running operation that are still to come; empty when idle -/
  seq : List SeqItem
  /-- the trace so far, oldest event first (R12) -/
  trace : List Event
  /-- the responses so far, oldest first (R12) -/
  responses : List Word
  /-- the host's program: what it will issue next, first item first (R21, R30) -/
  host : List HostItem
  /-- the host's last computed value (R235 to R237) -/
  hostValue : HostValue
  /-- the answers of the lock arbiter, the bus and the host's clock (R32) -/
  env : Env
deriving DecidableEq, Repr

/-- Why the machine stops with a fault. -/
inductive Fault
  /-- An access to a framebuffer index that does not exist (R28, R60: indices are 0..FB_SIZE-1).
  Raised by `Memory.read`. Safe: no operation of the block makes such an access (R188, R190). -/
  | noSuchByte
  /-- A read of a framebuffer byte that nothing has written since power-on, whose value the spec leaves unspecified
  (R35, D14, U1). Raised by `Memory.read`. Safe: INIT writes every byte before any operation can read one (R156). -/
  | unwrittenByte
deriving DecidableEq, Repr

/-- Why an instruction has no meaning. -/
inductive Refusal
  /-- The instruction has no meaning yet. Raised by `exec` alone. Safe. -/
  | notModelled (mnemonic : String)
  /-- A micro-operation that needs `LOCK_HELD = 1` (R121, R122, R123) without it. Raised by the micro-operations that
  write the bus and by LOCK_RELEASE. Safe: the rules give no effect there, and no run of INIT or SHOW gets there. -/
  | lockNotHeld
  /-- LOCK_ACQUIRE needs `LOCK_HELD = 0` (R120). Raised by LOCK_ACQUIRE. Safe, as above. -/
  | lockAlreadyHeld
  /-- RST_DIR_OUT and RST_SET need `CFG.HAS_RESET = 1` (R127: "Neither micro-operation occurs otherwise").
  Raised by the two. Safe, as above. -/
  | noResetLine
  /-- An operand outside the domain its rule gives: an empty command, a chunk of 0 or more than 16 bytes, a command of
  other than 1 or 2 bytes, a wait of 0 ms (R122, R123, R125, R126). Raised by those micro-operations. Safe, as above. -/
  | operandOutOfDomain
  /-- A font without its own default glyph ("a model refuses such a font", R235, U11). Raised by LOOKUP and DRAW_TEXT.
  Safe. -/
  | fontWithoutDefault
  /-- A host write of `REQ` while `BUSY = 1` ("a model has no step for it", R294, U12). Raised by `hostWrite`. Safe. -/
  | requestWhileBusy
deriving DecidableEq, Repr

/-- No answer decided yet, nobody asked yet. -/
def Env.fresh : Env :=
  { lockAnswers := [], lockDraws := 0, busAnswers := [], busDraws := 0, clockAnswers := [], clockDraws := 0 }

/-- Power-on reset of a block with the configuration `c` (R35, R280). `REQ` has no reset value in the spec; the model
names 0 (log entry 5, DESIGN CHOICE, unsafe). The framebuffer lists nothing: its contents are unspecified (D14). -/
def State.powerOn (c : Cfg) : State :=
  { cfg := c, life := .uninit, lockHeld := false, rstDriven := false, rstLevel := false, fb := [], busy := false,
    req := 0, resp := 0, seq := [], trace := [], responses := [], host := [], hostValue := .nothing, env := .fresh }

/-- The machine right after power-on reset (R280), with the reference configuration (log entry 1). -/
def State.reset : State := State.powerOn Cfg.reference

end Sys2Proof.Machine
end

