-- ==== Sys2Proof/Machine/Flags.lean ====
section
/-! DEFINITION. What stands in for flags (R33): the response word and its codes (R90, R91), and the STATUS byte
(R24, R29). -/

namespace Sys2Proof.Machine

/-- The numbers of `STATE` (R24). -/
def Life.code : Life → BitVec 2
  | .uninit => 0
  | .initializing => 1
  | .ready => 2
  | .failed => 3

/-- The numbers of the response codes (R91). -/
def RespCode.code : RespCode → BitVec 4
  | .ok => 0x0
  | .illegal => 0x1
  | .notReady => 0x2
  | .badState => 0x3
  | .busFail => 0x4
  | .range => 0x5

/-- Format RSP (R90): CODE in [31:28], zeros in [27:8], DATA in [7:0]. -/
def responseWord (code : RespCode) (data : Byte) : Word := code.code ++ 0#20 ++ data

/-- `STATUS` (R29, R158): `{000, RST_LEVEL, RST_DRIVEN, LOCK_HELD, STATE[1:0]}`; it has no storage of its own. -/
def State.status (s : State) : Byte :=
  0#3 ++ BitVec.ofBool s.rstLevel ++ BitVec.ofBool s.rstDriven ++ BitVec.ofBool s.lockHeld ++ s.life.code

end Sys2Proof.Machine
end

