-- ==== Sys2Proof/Machine/Operands.lean ====
section
/-! DEFINITION. Operand forms: the (x, y)-to-(index, bit) mapper and its range test (R180, R181), the bit-write unit's
byte computation (R182), and slices of byte lists (R9). -/

namespace Sys2Proof.Machine

/-- INRANGE (R181), as signed comparisons of integers. -/
def inRange (c : Cfg) (x y : Int) : Bool :=
  decide (0 ≤ x) && decide (x < c.width) && decide (0 ≤ y) && decide (y < c.height)

/-- MAP (R180): the byte index and the bit of an in-range pair, and nothing for any other pair. -/
def mapXY (c : Cfg) (x y : Int) : Option (Nat × Nat) :=
  if inRange c x y then
    let page := y.toNat >>> 3
    let bit := y.toNat &&& 7
    some (page * c.width + x.toNat, bit)
  else none

/-- The byte that BITWRITE writes back (R182): OR to set, AND-NOT within 8 bits to clear. -/
def bitWriteByte (b : Byte) (bit : Nat) (v : Bool) : Byte :=
  if v then b ||| (1#8 <<< bit) else b &&& ~~~(1#8 <<< bit)

/-- `ceil_div` (R8). -/
def ceilDiv (a b : Nat) : Nat := (a + b - 1) / b

/-- `slice(l, i, j)` (R9): elements i..j-1, empty when j ≤ i. -/
def slice (l : List Byte) (i j : Nat) : List Byte := (l.drop i).take (j - i)

end Sys2Proof.Machine
end

