-- ==== Sys2Proof/Machine/Ops.lean ====
section
/-! DEFINITION. The named operations over memory, the host port, the environment and the bus that the meanings share,
the raising of a bus failure (R255) among them. -/

namespace Sys2Proof.Machine

/-! ## The framebuffer memory (R10, R28) -/

/-- The byte listed at an index. -/
def Memory.find : Memory → Nat → Option Byte
  | [], _ => none
  | (a, b) :: rest, i => if a = i then some b else Memory.find rest i

/-- `MemRead(i, 1)` of a framebuffer of `size` bytes (R10). -/
def Memory.read (size : Nat) (m : Memory) (i : Nat) : Except Fault Byte :=
  if i < size then
    match m.find i with
    | some b => .ok b
    | none => .error .unwrittenByte
  else .error .noSuchByte

/-- The list with the byte at `i` put at its place in the rising order. -/
def Memory.put : Memory → Nat → Byte → Memory
  | [], i, v => [(i, v)]
  | (a, b) :: rest, i, v =>
    if i < a then (i, v) :: (a, b) :: rest
    else if i = a then (i, v) :: rest
    else (a, b) :: Memory.put rest i v

/-- `MemWrite(i, 1, v)` (R10). -/
def Memory.write (size : Nat) (m : Memory) (i : Nat) (v : Byte) : Except Fault Memory :=
  if i < size then .ok (m.put i v) else .error .noSuchByte

/-- Every byte written with one value (R186, R156). -/
def Memory.filled (size : Nat) (v : Byte) : Memory := (List.range size).map fun i => (i, v)

/-- The bytes 0..n-1 of an answer list, or the first fault. -/
def collect : List (Except Fault Byte) → Except Fault (List Byte)
  | [] => .ok []
  | .error f :: _ => .error f
  | .ok b :: rest => (collect rest).map (b :: ·)

/-- One read of every byte, in increasing index order (R56, SHOW). -/
def Memory.dump (size : Nat) (m : Memory) : Except Fault (List Byte) :=
  collect ((List.range size).map fun i => m.read size i)

/-- The canonical form of a framebuffer of `size` bytes: the indices strictly rising, and each below `size`. -/
def Memory.wf (size : Nat) : Memory → Bool
  | [] => true
  | [(a, _)] => decide (a < size)
  | (a, _) :: (a', b') :: rest => decide (a < a') && Memory.wf size ((a', b') :: rest)

/-- Every byte of the framebuffer has been written since power-on. -/
def Memory.full (size : Nat) (m : Memory) : Bool := (List.range size).all fun i => (m.find i).isSome

/-- `FB[i]` (R10). -/
def State.readFb (s : State) (i : Nat) : Except Fault Byte := s.fb.read s.cfg.fbSize i

/-- The state with every framebuffer byte at `v`. -/
def State.fillFb (s : State) (v : Byte) : State := { s with fb := Memory.filled s.cfg.fbSize v }

/-- BITWRITE (R182): one indivisible read-modify-write of framebuffer byte `index`. -/
def bitWrite (index bit : Nat) (v : Bool) (s : State) : Except Fault State :=
  match s.readFb index with
  | .error f => .error f
  | .ok b =>
    match s.fb.write s.cfg.fbSize index (bitWriteByte b bit v) with
    | .error f => .error f
    | .ok m => .ok { s with fb := m }

/-- PIX(x, y) (R185): the pixel value of an in-range pair; a reading function for claims, not an operation. -/
def State.pix (s : State) (x y : Int) : Option Bool :=
  match mapXY s.cfg x y with
  | none => none
  | some (index, bit) =>
    match s.readFb index with
    | .error _ => none
    | .ok b => some (b.getLsbD bit)

/-! ## Trace and host port -/

/-- The trace with one more event at its end (R12). -/
def State.emit (s : State) (e : Event) : State := { s with trace := s.trace ++ [e] }

/-- `respond(code, data)` ends the current host operation (R11, R30): `RESP` is written, `BUSY` falls, and the sequencer
is idle. -/
def State.respond (s : State) (code : RespCode) (data : Byte) : State :=
  { s with resp := responseWord code data, responses := s.responses ++ [responseWord code data], busy := false, seq := [] }

/-- The host writes `REQ` (R30): only while `BUSY = 0`; there is no step for a write while `BUSY = 1` (R294). -/
def hostWrite (w : Word) (s : State) : Host.Outcome State Fault Refusal :=
  if s.busy then .refused .requestWhileBusy else .next { s with req := w, busy := true, seq := [.fetch] }

/-- Micro-steps put in front of those still to come (R31). -/
def State.push (s : State) (items : List SeqItem) : State := { s with seq := items ++ s.seq }

/-! ## The environment's answers (R11, R32) -/

/-- The arbiter's answer to the next `LockTry` (U5): the one decided, or else a free value. -/
def State.lockAnswer (s : State) : Bool := (s.env.lockAnswers.head?).getD (Config.freeLockGrant s.env.lockDraws)

/-- After one `LockTry`. -/
def State.lockDrawn (s : State) : State :=
  { s with env := { s.env with lockAnswers := s.env.lockAnswers.tail, lockDraws := s.env.lockDraws + 1 } }

/-- The bus collaborator's answer to the next `BusWrite` (U3): the one decided, or else a free value. -/
def State.busAnswer (s : State) : BusResult := (s.env.busAnswers.head?).getD (Config.freeBusResult s.env.busDraws)

/-- After one `BusWrite`. -/
def State.busDrawn (s : State) : State :=
  { s with env := { s.env with busAnswers := s.env.busAnswers.tail, busDraws := s.env.busDraws + 1 } }

/-- Whether the host, looking at its clock, finds that the probe's timeout has elapsed (R237, U9). -/
def State.clockAnswer (s : State) (timeout : Nat) : Bool :=
  (s.env.clockAnswers.head?).getD (Config.freeElapsed timeout s.env.clockDraws)

/-- After one look at the clock. -/
def State.clockDrawn (s : State) : State :=
  { s with env := { s.env with clockAnswers := s.env.clockAnswers.tail, clockDraws := s.env.clockDraws + 1 } }

/-! ## Bus failure (R128, R254, R255) -/

/-- `raise BusFail()` (R255): the micro-operation list stops; what is left is the release of the lock (R128) and then the
operation's `catch BusFail`. -/
def State.raiseBusFail (s : State) : State := { s with seq := [.op .lockRelease, .catchFail] }

/-- The operation's `catch BusFail` (R255 steps 3 and 4): INIT goes to FAILED (R157), SHOW leaves `STATE` alone (R214).
INIT is the running operation exactly when `STATE` is INITIALIZING (R25, D30). -/
def State.catchBusFail (s : State) : State :=
  match s.life with
  | .initializing => { s with life := .failed }.respond .busFail 0
  | .uninit | .ready | .failed => s.respond .busFail 0

/-- The normal end of the running operation: INIT enters READY (R150), SHOW leaves `STATE` alone (R210). -/
def State.completeOp (s : State) : State :=
  match s.life with
  | .initializing => { s with life := .ready }.respond .ok 0
  | .uninit | .ready | .failed => s.respond .ok 0

/-! ## Bus transactions (R122 to R125) -/

/-- One bus write of a control byte and its payload to `CFG.ADDR`, its event, and the raising of BusFail when it failed
(R122, R123, R124). A failed write is not retried (R129). -/
def transact (control : Byte) (payload : List Byte) (s : State) : State :=
  let t := s.busDrawn.emit (.wr s.cfg.addr (control :: payload) s.busAnswer)
  match s.busAnswer with
  | .ack => t
  | .fail => t.raiseBusFail

/-- A transaction is made only while `LOCK_HELD = 1` (R122, R123, R124). -/
def sendTransaction (control : Byte) (payload : List Byte) (s : State) : Host.Outcome State Fault Refusal :=
  if s.lockHeld then .next (transact control payload s) else .refused .lockNotHeld

/-- TX_CMD (R122): one command transaction. -/
def sendCommandBytes (cmd : List Byte) (s : State) : Host.Outcome State Fault Refusal :=
  if commandBytesOk cmd then sendTransaction 0x00 cmd s else .refused .operandOutOfDomain

/-- TX_DATA (R123): one data transaction. -/
def sendChunk (chunk : List Byte) (s : State) : Host.Outcome State Fault Refusal :=
  if chunkOk chunk then sendTransaction 0x40 chunk s else .refused .operandOutOfDomain

/-- EMIT_CMD (R125): one controller command of 1 or 2 bytes under the configured grouping. Each bus write is one step of
the block (R11), so under PER_BYTE the first byte is sent now and the argument byte's TX_CMD is the next micro-step; a
failure on the opcode byte drops it. -/
def emitCommand (c : List Byte) (s : State) : Host.Outcome State Fault Refusal :=
  match c with
  | [] => .refused .operandOutOfDomain
  | [b] => sendTransaction 0x00 [b] s
  | [b, a] =>
    match s.cfg.framing with
    | .perCommand => sendTransaction 0x00 [b, a] s
    | .perByte => sendTransaction 0x00 [b] (s.push [.op (.txCmd [a])])
  | _ :: _ :: _ :: _ => .refused .operandOutOfDomain

/-- EMIT_CMD of one of the controller commands of R94. -/
def sendCommand (k : Command) (s : State) : Host.Outcome State Fault Refusal := emitCommand k.bytes s

/-- An outcome of a fallible state change. -/
def outcomeOf : Except Fault State → Host.Outcome State Fault Refusal
  | .ok s => .next s
  | .error f => .fault f

end Sys2Proof.Machine
end

