-- ==== Sys2Proof/Machine/Sequencer.lean ====
section
/-! DEFINITION. The fixed lists of micro-steps that INIT and SHOW walk (R21, R130, R150 to R156, R210 to R215). -/

namespace Sys2Proof.Machine

/-- The body of RESET_PULSE's lock group (R152). -/
def resetPulseBody : List MicroOp :=
  [.rstDirOut, .rstSet true, .wait 10, .rstSet false, .wait 10, .rstSet true, .wait 50]

/-- BRINGUP (R154): the 15 controller commands, in their fixed order. -/
def bringup (c : Cfg) : List Command :=
  [ .displayOff,
    .setClkdiv 0x80,
    .setMux (BitVec.ofNat 8 (c.height - 1)),
    .setOffset 0x00,
    .setStartline0,
    .chargePump 0x8B,
    .segRemap c.hmirror,
    .comScan c.vmirror,
    .comPins 0x12,
    .contrast 0x7F,
    .precharge 0xF1,
    .vcomh 0x40,
    .entireOff,
    .normal,
    .displayOn ]

/-- BRINGUP_BODY (R153, R155): the 15 commands, then the settle wait, inside the lock group. -/
def bringupBody (c : Cfg) : List MicroOp := (bringup c).map .command ++ [.wait 20]

/-- The three header commands of page `p` (R211). -/
def pageHeader (c : Cfg) (p : Nat) : List MicroOp :=
  [ .command (.setPage (BitVec.ofNat 4 p)),
    .command (.setColLo (c.colOffset.extractLsb' 0 4)),
    .command (.setColHi (c.colOffset.extractLsb' 4 4)) ]

/-- The data transactions of page `p` (R212): chunks of CHUNK bytes from the start of the page, the last one shorter. -/
def pageData (c : Cfg) (bytes : List Byte) (p : Nat) : List MicroOp :=
  (List.range (ceilDiv c.width c.chunk)).map fun k =>
    .txData (slice bytes (p * c.width + k * c.chunk) (p * c.width + min (k * c.chunk + c.chunk) c.width))

/-- FLUSH_BODY (R215) over the framebuffer's bytes, page by page. -/
def flushBody (c : Cfg) (bytes : List Byte) : List MicroOp :=
  (List.range c.pages).flatMap fun p => pageHeader c p ++ pageData c bytes p

/-- What WITH_LOCK (R128) runs: the acquisition, the body, and the release on normal end. The release after a bus failure
is `State.raiseBusFail`'s. -/
def lockGroup (body : List MicroOp) : List SeqItem :=
  .op .lockAcquire :: body.map (fun m => .op m.toInstr) ++ [.op .lockRelease]

/-- INIT's micro-steps after it is accepted (R150, R151). -/
def initProgram (c : Cfg) : List SeqItem :=
  (if c.hasReset then [.op (.withLock resetPulseBody)] else []) ++
  [.op (.withLock (bringupBody c)), .zeroFill, .flush, .complete]

/-- SHOW's micro-steps after it is accepted (R210). -/
def showProgram : List SeqItem := [.flush, .complete]

end Sys2Proof.Machine
end

