-- ==== Sys2Proof/Machine/HostOps.lean ====
section
/-! DEFINITION. The meanings of the host operation words: INIT, SETPIX, FILL, SHOW, RDFB, RDSTAT and the illegal word
(R88, R150, R158, R183, R186, R188, R210). The state checks of R251 come before any effect. -/

namespace Sys2Proof.Machine

/-- INIT (R150): outside UNINIT it responds BAD_STATE; in UNINIT it is accepted, `STATE` becomes INITIALIZING, and the
sequencer walks INIT's micro-steps. -/
def execInit (s : State) : Host.Outcome State Fault Refusal :=
  match s.life with
  | .uninit => .next { s with life := .initializing, seq := initProgram s.cfg }
  | .initializing | .ready | .failed => .next (s.respond .badState 0)

/-- SETPIX (R183): in READY, an in-range pair has its bit written, any other pair has no effect; both respond OK. -/
def execSetpix (x y : BitVec 12) (v : Bool) (s : State) : Host.Outcome State Fault Refusal :=
  match s.life with
  | .ready =>
    match mapXY s.cfg x.toInt y.toInt with
    | none => .next (s.respond .ok 0)
    | some (index, bit) => outcomeOf ((bitWrite index bit v s).map fun t => t.respond .ok 0)
  | .uninit | .initializing | .failed => .next (s.respond .notReady 0)

/-- FILL (R186): in READY, every framebuffer byte becomes 0xFF or 0x00. -/
def execFill (v : Bool) (s : State) : Host.Outcome State Fault Refusal :=
  match s.life with
  | .ready => .next ((s.fillFb (if v then 0xFF else 0x00)).respond .ok 0)
  | .uninit | .initializing | .failed => .next (s.respond .notReady 0)

/-- SHOW (R210): in READY it is accepted and the sequencer walks SHOW's micro-steps. -/
def execShow (s : State) : Host.Outcome State Fault Refusal :=
  match s.life with
  | .ready => .next { s with seq := showProgram }
  | .uninit | .initializing | .failed => .next (s.respond .notReady 0)

/-- RDFB (R188): in READY, the byte at an index below FB_SIZE, and RANGE for any other index. -/
def execRdfb (index : BitVec 16) (s : State) : Host.Outcome State Fault Refusal :=
  match s.life with
  | .ready =>
    if s.cfg.fbSize ≤ index.toNat then .next (s.respond .range 0)
    else outcomeOf ((s.readFb index.toNat).map fun b => s.respond .ok b)
  | .uninit | .initializing | .failed => .next (s.respond .notReady 0)

/-- RDSTAT (R158): the STATUS byte, in every state. -/
def execRdstat (s : State) : Host.Outcome State Fault Refusal := .next (s.respond .ok s.status)

/-- An illegal word (R88, R252): no effect but the response. -/
def execIllegal (_word : Word) (s : State) : Host.Outcome State Fault Refusal := .next (s.respond .illegal 0)

end Sys2Proof.Machine
end

