-- ==== Sys2Proof/Machine/Pseudo.lean ====
section
/-! DEFINITION. The meanings of the host's pseudo-operations (R230 to R237): host procedures that put SETPIX words in
front of the host's program, or compute a host value. None of them touches the block. -/

namespace Sys2Proof.Machine

/-- `emit SETPIX x, y, 1` with the clipping of R231: a cell outside the 12-bit coordinate field is not emitted. -/
def setpixWord (x y : Int) : Option Word := assemble (.setpix x y 1)

/-- Whether cell (row r, column c) of a row-major glyph is '1' (R231). -/
def GlyphR.cell (g : GlyphR) (r c : Fin 5) : Bool := (g.rows.get r).get c

/-- The words of DRAW_GLYPH_R (R231): rows top to bottom, and in each the columns left to right. -/
def glyphRWords (x y : Int) (g : GlyphR) : List Word :=
  (List.finRange 5).flatMap fun r =>
    (List.finRange 5).filterMap fun c => if GlyphR.cell g r c then setpixWord (x + c.val) (y + r.val) else none

/-- Whether row r of column c of a column-major glyph is 1 (R232); rows are 0..6, so bit 7 is not read. -/
def GlyphC.cell (g : GlyphC) (c : Fin 5) (r : Fin 7) : Bool := (g.cols.get c).getLsbD r.val

/-- The words of DRAW_GLYPH_C (R232): columns left to right, and in each the rows top to bottom. -/
def glyphCWords (x y : Int) (g : GlyphC) : List Word :=
  (List.finRange 5).flatMap fun c =>
    (List.finRange 7).filterMap fun r => if GlyphC.cell g c r then setpixWord (x + c.val) (y + r.val) else none

/-- LOOKUP (R235): the font's entry for the character, or its default glyph; nothing for a font that lacks its own
default glyph, which a model refuses. -/
def fontLookup (font : Font) (ch : Char) : Option Glyph :=
  match font with
  | .rowMajor entries => (entries.lookup ' ').map fun d => .rowMajor ((entries.lookup ch).getD d)
  | .colMajor entries => (entries.lookup '?').map fun d => .colMajor ((entries.lookup ch).getD d)

/-- The words of a glyph of either format. -/
def glyphWords (x y : Int) : Glyph → List Word
  | .rowMajor g => glyphRWords x y g
  | .colMajor g => glyphCWords x y g

/-- The words of DRAW_TEXT (R234): the cursor advances by 5 + spacing after each character. -/
def textWords (font : Font) (spacing y : Int) : Int → List Char → List Word
  | _, [] => []
  | cx, ch :: rest =>
    ((fontLookup font ch).map (glyphWords cx y)).getD [] ++ textWords font spacing y (cx + 5 + spacing) rest

/-- Words put in front of the host's program: the host issues them next (R230). -/
def State.emitWords (s : State) (words : List Word) : State := { s with host := words.map .word ++ s.host }

/-- CENTER_X (R236): `max(0, (CFG.WIDTH - w) // 2)` with floor division. -/
def centerX (c : Cfg) (w : Nat) : Int := max 0 (((c.width : Int) - (w : Int)) / 2)

/-- DRAW_GLYPH_R (R231). -/
def execDrawGlyphR (x y : Int) (g : GlyphR) (s : State) : Host.Outcome State Fault Refusal :=
  .next (s.emitWords (glyphRWords x y g))

/-- DRAW_GLYPH_C (R232). -/
def execDrawGlyphC (x y : Int) (g : GlyphC) (s : State) : Host.Outcome State Fault Refusal :=
  .next (s.emitWords (glyphCWords x y g))

/-- DRAW_TEXT (R234). -/
def execDrawText (text : List Char) (x y : Int) (font : Font) (spacing : Int) (s : State) :
    Host.Outcome State Fault Refusal :=
  if font.hasDefault then .next (s.emitWords (textWords font spacing y x text)) else .refused .fontWithoutDefault

/-- LOOKUP (R235). -/
def execLookup (font : Font) (ch : Char) (s : State) : Host.Outcome State Fault Refusal :=
  match fontLookup font ch with
  | some g => .next { s with hostValue := .glyph g }
  | none => .refused .fontWithoutDefault

/-- CENTER_X (R236). -/
def execCenterX (w : Nat) (s : State) : Host.Outcome State Fault Refusal :=
  .next { s with hostValue := .number (centerX s.cfg w) }

/-- PROBE_LOCK (R237): one `LockTry` of the host. Granted, the host does its probe activity and releases the lock; denied,
the host looks at its clock, and it tries again until the timeout has elapsed. The arbiter grants nothing while the block
owns the lock (R65). The probe makes no operation word and no event of the block. -/
def execProbeLock (timeout : Nat) (s : State) : Host.Outcome State Fault Refusal :=
  .next (
    if s.lockAnswer && !s.lockHeld then { s.lockDrawn with hostValue := .probe true }
    else if s.lockDrawn.clockAnswer timeout then { s.lockDrawn.clockDrawn with hostValue := .probe false }
    else { s.lockDrawn.clockDrawn with host := .call (.probeLock timeout) :: s.host })

/-- PROBE_LOCK with the open parameter PROBE_TIMEOUT (R237, D17). -/
def startupProbe : PseudoOp := .probeLock Config.probeTimeout

end Sys2Proof.Machine
end

