-- ==== Sys2Proof/Machine/Transactor.lean ====
section
/-! DEFINITION. The meanings of the transactor's micro-operations (R120 to R128). -/

namespace Sys2Proof.Machine

/-- LOCK_ACQUIRE (R120): one `LockTry`. Granted, the lock is held and ACQ is emitted; denied, there is no event and no
state change, and the next micro-step tries again. -/
def execLockAcquire (s : State) : Host.Outcome State Fault Refusal :=
  if s.lockHeld then .refused .lockAlreadyHeld
  else .next (if s.lockAnswer then { s.lockDrawn with lockHeld := true }.emit .acq else s.lockDrawn.push [.op .lockAcquire])

/-- LOCK_RELEASE (R121): release never fails. -/
def execLockRelease (s : State) : Host.Outcome State Fault Refusal :=
  if s.lockHeld then .next ({ s with lockHeld := false }.emit .rel) else .refused .lockNotHeld

/-- TX_CMD (R122). -/
def execTxCmd (cmd : List Byte) (s : State) : Host.Outcome State Fault Refusal := sendCommandBytes cmd s

/-- TX_DATA (R123). -/
def execTxData (chunk : List Byte) (s : State) : Host.Outcome State Fault Refusal := sendChunk chunk s

/-- EMIT_CMD (R125). -/
def execEmitCmd (c : List Byte) (s : State) : Host.Outcome State Fault Refusal := emitCommand c s

/-- WAIT (R126): a model without time takes one step that records the event. -/
def execWait (ms : Nat) (s : State) : Host.Outcome State Fault Refusal :=
  if 1 ≤ ms then .next (s.emit (.wait ms)) else .refused .operandOutOfDomain

/-- RST_DIR_OUT (R127). -/
def execRstDirOut (s : State) : Host.Outcome State Fault Refusal :=
  if s.cfg.hasReset then .next ({ s with rstDriven := true }.emit .gdir) else .refused .noResetLine

/-- RST_SET (R127). -/
def execRstSet (level : Bool) (s : State) : Host.Outcome State Fault Refusal :=
  if s.cfg.hasReset then .next ({ s with rstLevel := level }.emit (.gset level)) else .refused .noResetLine

/-- WITH_LOCK (R128): the next micro-steps are the acquisition, the body and the release. -/
def execWithLock (body : List MicroOp) (s : State) : Host.Outcome State Fault Refusal := .next (s.push (lockGroup body))

end Sys2Proof.Machine
end

