-- ==== Sys2Proof/Machine/Wire.lean ====
section
/-! DEFINITION. The meanings of the two transaction formats (R92) and of the controller commands (R94, R154, R211): what
the block does when it sends one. What the controller does with it is outside the block (R5). -/

namespace Sys2Proof.Machine

/-- A command transaction, control byte 0x00 (R92, R122). -/
def execCtrlCmd (cmd : List Byte) (s : State) : Host.Outcome State Fault Refusal := sendCommandBytes cmd s

/-- A data transaction, control byte 0x40 (R92, R123). -/
def execCtrlData (chunk : List Byte) (s : State) : Host.Outcome State Fault Refusal := sendChunk chunk s

/-- DISPLAY_OFF: 0xAE (R94, D7). -/
def execDisplayOff (s : State) : Host.Outcome State Fault Refusal := sendCommand .displayOff s

/-- SET_CLKDIV: 0xD5 and its argument (R94). -/
def execSetClkdiv (arg : Byte) (s : State) : Host.Outcome State Fault Refusal := sendCommand (.setClkdiv arg) s

/-- SET_MUX: 0xA8 and its argument (R94, R95 (a)). -/
def execSetMux (arg : Byte) (s : State) : Host.Outcome State Fault Refusal := sendCommand (.setMux arg) s

/-- SET_OFFSET: 0xD3 and its argument (R94). -/
def execSetOffset (arg : Byte) (s : State) : Host.Outcome State Fault Refusal := sendCommand (.setOffset arg) s

/-- SET_STARTLINE0: 0x40 as a command byte (R94, R96). -/
def execSetStartline0 (s : State) : Host.Outcome State Fault Refusal := sendCommand .setStartline0 s

/-- CHARGE_PUMP: 0xAD and its argument (R94). -/
def execChargePump (arg : Byte) (s : State) : Host.Outcome State Fault Refusal := sendCommand (.chargePump arg) s

/-- SEG_REMAP: 0xA0 or 0xA1 (R94, R95 (d)). -/
def execSegRemap (h : Bool) (s : State) : Host.Outcome State Fault Refusal := sendCommand (.segRemap h) s

/-- COM_SCAN: 0xC0 or 0xC8 (R94, R95 (e)). -/
def execComScan (v : Bool) (s : State) : Host.Outcome State Fault Refusal := sendCommand (.comScan v) s

/-- COM_PINS: 0xDA and its argument (R94). -/
def execComPins (arg : Byte) (s : State) : Host.Outcome State Fault Refusal := sendCommand (.comPins arg) s

/-- CONTRAST: 0x81 and its argument (R94). -/
def execContrast (arg : Byte) (s : State) : Host.Outcome State Fault Refusal := sendCommand (.contrast arg) s

/-- PRECHARGE: 0xD9 and its argument (R94). -/
def execPrecharge (arg : Byte) (s : State) : Host.Outcome State Fault Refusal := sendCommand (.precharge arg) s

/-- VCOMH: 0xDB and its argument (R94). -/
def execVcomh (arg : Byte) (s : State) : Host.Outcome State Fault Refusal := sendCommand (.vcomh arg) s

/-- ENTIRE_OFF: 0xA4 (R94). -/
def execEntireOff (s : State) : Host.Outcome State Fault Refusal := sendCommand .entireOff s

/-- NORMAL: 0xA6 (R94). -/
def execNormal (s : State) : Host.Outcome State Fault Refusal := sendCommand .normal s

/-- DISPLAY_ON: 0xAF (R94). -/
def execDisplayOn (s : State) : Host.Outcome State Fault Refusal := sendCommand .displayOn s

/-- SET_PAGE: 0xB0 + p (R94, R95 (b), R211). -/
def execSetPage (p : BitVec 4) (s : State) : Host.Outcome State Fault Refusal := sendCommand (.setPage p) s

/-- SET_COL_LO: the low nibble of the column offset (R94, R95 (c), R211). -/
def execSetColLo (l : BitVec 4) (s : State) : Host.Outcome State Fault Refusal := sendCommand (.setColLo l) s

/-- SET_COL_HI: 0x10 with the high nibble of the column offset (R94, R95 (c), R211). -/
def execSetColHi (u : BitVec 4) (s : State) : Host.Outcome State Fault Refusal := sendCommand (.setColHi u) s

end Sys2Proof.Machine
end

