-- ==== Sys2Proof/Machine/Dispatch.lean ====
section
/-! DEFINITION. One arm per constructor of `Instr`. -/

namespace Sys2Proof.Machine

def exec (i : Instr) (s : State) : Host.Outcome State Fault Refusal :=
  match i with
  -- host operation words
  | .init => Sys2Proof.Machine.execInit s
  | .setpix x y v => Sys2Proof.Machine.execSetpix x y v s
  | .fill v => Sys2Proof.Machine.execFill v s
  | .showFrame => Sys2Proof.Machine.execShow s
  | .rdfb index => Sys2Proof.Machine.execRdfb index s
  | .rdstat => Sys2Proof.Machine.execRdstat s
  | .illegal word => Sys2Proof.Machine.execIllegal word s
  -- transaction formats
  | .ctrlCmd cmd => Sys2Proof.Machine.execCtrlCmd cmd s
  | .ctrlData chunk => Sys2Proof.Machine.execCtrlData chunk s
  -- controller commands
  | .displayOff => Sys2Proof.Machine.execDisplayOff s
  | .setClkdiv arg => Sys2Proof.Machine.execSetClkdiv arg s
  | .setMux arg => Sys2Proof.Machine.execSetMux arg s
  | .setOffset arg => Sys2Proof.Machine.execSetOffset arg s
  | .setStartline0 => Sys2Proof.Machine.execSetStartline0 s
  | .chargePump arg => Sys2Proof.Machine.execChargePump arg s
  | .segRemap h => Sys2Proof.Machine.execSegRemap h s
  | .comScan v => Sys2Proof.Machine.execComScan v s
  | .comPins arg => Sys2Proof.Machine.execComPins arg s
  | .contrast arg => Sys2Proof.Machine.execContrast arg s
  | .precharge arg => Sys2Proof.Machine.execPrecharge arg s
  | .vcomh arg => Sys2Proof.Machine.execVcomh arg s
  | .entireOff => Sys2Proof.Machine.execEntireOff s
  | .normal => Sys2Proof.Machine.execNormal s
  | .displayOn => Sys2Proof.Machine.execDisplayOn s
  | .setPage p => Sys2Proof.Machine.execSetPage p s
  | .setColLo l => Sys2Proof.Machine.execSetColLo l s
  | .setColHi u => Sys2Proof.Machine.execSetColHi u s
  -- micro-operations
  | .lockAcquire => Sys2Proof.Machine.execLockAcquire s
  | .lockRelease => Sys2Proof.Machine.execLockRelease s
  | .txCmd cmd => Sys2Proof.Machine.execTxCmd cmd s
  | .txData chunk => Sys2Proof.Machine.execTxData chunk s
  | .emitCmd c => Sys2Proof.Machine.execEmitCmd c s
  | .wait ms => Sys2Proof.Machine.execWait ms s
  | .rstDirOut => Sys2Proof.Machine.execRstDirOut s
  | .rstSet level => Sys2Proof.Machine.execRstSet level s
  | .withLock body => Sys2Proof.Machine.execWithLock body s
  -- host pseudo-operations
  | .drawGlyphR x y g => Sys2Proof.Machine.execDrawGlyphR x y g s
  | .drawGlyphC x y g => Sys2Proof.Machine.execDrawGlyphC x y g s
  | .drawText text x y font spacing => Sys2Proof.Machine.execDrawText text x y font spacing s
  | .lookup font ch => Sys2Proof.Machine.execLookup font ch s
  | .centerX w => Sys2Proof.Machine.execCenterX w s
  | .probeLock timeout => Sys2Proof.Machine.execProbeLock timeout s

end Sys2Proof.Machine
end

