-- ==== Sys2Proof/Machine/Advance.lean ====
section
/-! DEFINITION. What one step does: a micro-step of the sequencer (R31), or, while the block is idle, a turn of the host
(R21, R30); and where a word of the opcode table is placed so that the next step runs it. -/

namespace Sys2Proof.Machine

/-- The host's turn while the sequencer is idle: it presents its next operation word (R30) or expands its next
pseudo-operation (R230); with nothing to do the block waits (R280). -/
def hostTurn (s : State) : Host.Outcome State Fault Refusal :=
  match s.host with
  | [] => .next s
  | .word w :: rest => hostWrite w { s with host := rest }
  | .call p :: rest => exec p.toInstr { s with host := rest }

/-- One micro-step of the sequencer (R31), already taken off the list. The flush reads the whole framebuffer when it
starts: nothing can write it until the operation ends (R57, R215). -/
def runItem (item : SeqItem) (s : State) : Host.Outcome State Fault Refusal :=
  match item with
  | .fetch => exec (decodeWord s.req) s
  | .op i => exec i s
  | .zeroFill => .next (s.fillFb 0x00)
  | .flush =>
    match s.fb.dump s.cfg.fbSize with
    | .error f => .fault f
    | .ok bytes => exec (.withLock (flushBody s.cfg bytes)) s
  | .complete => .next s.completeOp
  | .catchFail => .next s.catchBusFail

/-- One step: the sequencer's next micro-step, or the host's turn when it is idle. -/
def advance (s : State) : Host.Outcome State Fault Refusal :=
  match s.seq with
  | [] => hostTurn s
  | item :: rest => runItem item { s with seq := rest }

/-- A 32-bit word of the opcode table is an operation word just written to `REQ` (R30). -/
def placeWord (s : State) (w : Word) : State := { s with req := w, busy := true, seq := [.fetch] }

/-- An 8-bit row of the opcode table is a control byte or a controller command, which the block sends only inside a lock
group (R124): the lock is held, the instruction is the next micro-step, and the release and the operation's end follow
(log entry 2). -/
def placeByte (s : State) (b : Byte) : State :=
  match decodeTableByte b with
  | .ok i => { s with lockHeld := true, busy := true, seq := [.op i, .op .lockRelease, .complete] }
  | .error _ => s

end Sys2Proof.Machine
end

