-- ==== Sys2Proof/Machine/Step.lean ====
section
/-! DEFINITION. The step, and where it fetches its next instruction. -/

namespace Sys2Proof.Machine

/-- One step of the machine. -/
def step (s : State) : Host.Outcome State Fault Refusal := advance s

/-- The state with an instruction of the opcode table placed where the next step runs it (log entry 2). -/
def State.withFetchWord (s : State) (nbits w : Nat) : State :=
  if nbits = 32 then placeWord s (BitVec.ofNat 32 w)
  else if nbits = 8 then placeByte s (BitVec.ofNat 8 w)
  else s

end Sys2Proof.Machine
end

