-- ==== Sys2Proof/Safety.lean ====
section
/-! DEFINITION. The terms claims are stated in: runs, the lock discipline of a trace and of the pending micro-steps, the
invariant of the machine, and the traces the rules give for a bring-up and a flush. -/

namespace Sys2Proof.Machine

/-! ## Runs -/

/-- Some number of steps leads from `s` to `t`. -/
def Reaches (s t : State) : Prop := ∃ n : Nat, Sys2Proof.core.run n s = .next t

/-! ## The lock discipline (R26, R124, R128) -/

/-- Reads a trace with the lock held or not at its start: every event but ACQ needs the lock held, and ACQ needs it free.
The answer is whether the lock is held at the end, or nothing if the discipline is broken. -/
def lockScan : Bool → List Event → Option Bool
  | held, [] => some held
  | held, .acq :: es => if held then none else lockScan true es
  | held, .rel :: es => if held then lockScan false es else none
  | held, .gdir :: es => if held then lockScan held es else none
  | held, .gset _ :: es => if held then lockScan held es else none
  | held, .wait _ :: es => if held then lockScan held es else none
  | held, .wr _ _ _ :: es => if held then lockScan held es else none

/-- R124: one bus write is addressed to `CFG.ADDR`, begins with 0x00 or 0x40 and carries at least one byte after it, and
at most 16 in a data transaction (R92, R286). -/
def writeFormed (a : Addr7) : Event → Bool
  | .wr a7 (0x00 :: payload) _ => a7 == a && commandBytesOk payload
  | .wr a7 (0x40 :: payload) _ => a7 == a && chunkOk payload
  | .wr _ _ _ => false
  | .acq | .rel | .gdir | .gset _ | .wait _ => true

/-- A micro-operation that runs inside a lock group. -/
def inGroup : Instr → Bool
  | .ctrlCmd _ | .ctrlData _ | .txCmd _ | .txData _ | .emitCmd _ | .wait _ | .rstDirOut | .rstSet _ => true
  | .displayOff | .setClkdiv _ | .setMux _ | .setOffset _ | .setStartline0 | .chargePump _ | .segRemap _ | .comScan _
  | .comPins _ | .contrast _ | .precharge _ | .vcomh _ | .entireOff | .normal | .displayOn | .setPage _ | .setColLo _
  | .setColHi _ => true
  | .init | .setpix _ _ _ | .fill _ | .showFrame | .rdfb _ | .rdstat | .illegal _ => false
  | .lockAcquire | .lockRelease | .withLock _ => false
  | .drawGlyphR _ _ _ | .drawGlyphC _ _ _ | .drawText _ _ _ _ _ | .lookup _ _ | .centerX _ | .probeLock _ => false

/-- The pending micro-steps fit the lock: they acquire it when it is free, do their bus work while it is held, release it,
and end the operation with the lock free (R26). -/
def seqOk (c : Cfg) : Bool → List SeqItem → Bool
  | _, [] => false
  | held, [.fetch] => !held
  | held, [.complete] => !held
  | held, [.catchFail] => !held
  | held, .zeroFill :: rest => !held && seqOk c held rest
  | held, .flush :: rest => !held && seqOk c held rest
  | held, .op .lockAcquire :: rest => !held && seqOk c true rest
  | held, .op .lockRelease :: rest => held && seqOk c false rest
  | held, .op (.withLock body) :: rest => !held && body.all (MicroOp.wellFormed c) && seqOk c held rest
  | held, .op i :: rest => held && inGroup i && i.wellFormed c && seqOk c held rest
  | _, .fetch :: _ :: _ => false
  | _, .complete :: _ :: _ => false
  | _, .catchFail :: _ :: _ => false

/-- The pending micro-steps read the framebuffer, or make it readable by the host, before they zero it. -/
def needsFull : List SeqItem → Bool
  | [] => false
  | .zeroFill :: _ => false
  | .flush :: _ => true
  | .complete :: _ => true
  | .fetch :: rest => needsFull rest
  | .op _ :: rest => needsFull rest
  | .catchFail :: rest => needsFull rest

/-! ## The invariant -/

/-- What every state of a run from power-on reset satisfies. -/
structure Invariant (s : State) : Prop where
  /-- the framebuffer memory is in its canonical form, inside 0..FB_SIZE-1 (R28) -/
  fbWf : Memory.wf s.cfg.fbSize s.fb = true
  /-- `BUSY` is 1 exactly while micro-steps are pending (R30, R31) -/
  busySeq : s.busy = !s.seq.isEmpty
  /-- the lock is free while the block is idle (R26) -/
  idleFree : s.seq = [] → s.lockHeld = false
  /-- the pending micro-steps fit the lock (R26, R128) -/
  seqFits : s.seq ≠ [] → seqOk s.cfg s.lockHeld s.seq = true
  /-- the trace keeps the lock discipline, and `LOCK_HELD` is what it says (R26, R124) -/
  traceLock : lockScan false s.trace = some s.lockHeld
  /-- every bus write of the trace is formed as R124 says -/
  traceWrites : s.trace.all (writeFormed s.cfg.addr) = true
  /-- in READY every framebuffer byte has been written, so that it can be read (R156, D14) -/
  readyFull : s.life = .ready → Memory.full s.cfg.fbSize s.fb = true
  /-- and so before the pending micro-steps read it -/
  seqFull : needsFull s.seq = true → Memory.full s.cfg.fbSize s.fb = true
  /-- INITIALIZING exists only while INIT runs (R31, D30) -/
  initRuns : s.life = .initializing → s.seq ≠ [] ∧ SeqItem.fetch ∉ s.seq
  /-- without a reset line, it is never driven (R27) -/
  noReset : s.cfg.hasReset = false → s.rstDriven = false ∧ s.rstLevel = false

/-- An item of the host's program that the host can issue: any word, or a pseudo-operation it can expand (R235). -/
def HostItem.ok : HostItem → Bool
  | .word _ => true
  | .call p => p.wellFormed

/-- The host's program holds only items it can issue. -/
def hostOk (s : State) : Bool := s.host.all HostItem.ok

/-! ## The traces of the rules -/

/-- The command bytes of R94 and R95, by their arithmetic. -/
def sentBytes : Command → List Byte
  | .displayOff => [0xAE]
  | .setClkdiv a => [0xD5, a]
  | .setMux a => [0xA8, a]
  | .setOffset a => [0xD3, a]
  | .setStartline0 => [0x40]
  | .chargePump a => [0xAD, a]
  | .segRemap h => [0xA0 ||| (BitVec.ofBool h).setWidth 8]
  | .comScan v => [0xC0 ||| ((BitVec.ofBool v).setWidth 8 <<< 3)]
  | .comPins a => [0xDA, a]
  | .contrast a => [0x81, a]
  | .precharge a => [0xD9, a]
  | .vcomh a => [0xDB, a]
  | .entireOff => [0xA4]
  | .normal => [0xA6]
  | .displayOn => [0xAF]
  | .setPage p => [0xB0 + p.setWidth 8]
  | .setColLo l => [0x00 ||| l.setWidth 8]
  | .setColHi u => [0x10 ||| u.setWidth 8]

/-- The command transactions that EMIT_CMD makes of one command's bytes (R125). -/
def commandTransactions (f : CmdFraming) (k : List Byte) : List (List Byte) :=
  match f with
  | .perCommand => [0x00 :: k]
  | .perByte => k.map fun b => [0x00, b]

/-- The bus writes of a flush of `bytes` (R211, R212, R215), as byte lists in order. -/
def flushWrites (c : Cfg) (bytes : List Byte) : List (List Byte) :=
  (List.range c.pages).flatMap fun p =>
    [ [0x00, 0xB0 + BitVec.ofNat 8 p],
      [0x00, 0x00 ||| (c.colOffset &&& 0x0F)],
      [0x00, 0x10 ||| ((c.colOffset >>> 4) &&& 0x0F)] ] ++
    (List.range (ceilDiv c.width c.chunk)).map fun k =>
      0x40 :: slice bytes (p * c.width + k * c.chunk) (p * c.width + min (k * c.chunk + c.chunk) c.width)

/-- BRINGUP (R154): the command bytes of the 15 entries of its table. -/
def bringupTable (c : Cfg) : List (List Byte) :=
  [ [0xAE], [0xD5, 0x80], [0xA8, BitVec.ofNat 8 (c.height - 1)], [0xD3, 0x00], [0x40], [0xAD, 0x8B],
    [if c.hmirror then 0xA1 else 0xA0], [if c.vmirror then 0xC8 else 0xC0], [0xDA, 0x12], [0x81, 0x7F], [0xD9, 0xF1],
    [0xDB, 0x40], [0xA4], [0xA6], [0xAF] ]

/-- The bus writes of the bring-up (R153, R154) under the configured grouping (R125), as byte lists in order. -/
def bringupWrites (c : Cfg) : List (List Byte) :=
  (bringupTable c).flatMap (commandTransactions c.framing)

/-- The events of bus writes that all answer ACK. -/
def acked (c : Cfg) (writes : List (List Byte)) : List Event := writes.map fun w => .wr c.addr w .ack

/-- The events of one micro-operation whose bus writes all answer ACK (R122, R123, R125 to R127). -/
def microEvents (c : Cfg) : MicroOp → List Event
  | .command k => acked c (commandTransactions c.framing (sentBytes k))
  | .emitCmd b => acked c (commandTransactions c.framing b)
  | .txCmd cmd => acked c [0x00 :: cmd]
  | .txData chunk => acked c [0x40 :: chunk]
  | .wait ms => [.wait ms]
  | .rstDirOut => [.gdir]
  | .rstSet level => [.gset level]

/-- The number of bus writes among events. -/
def writeCount (es : List Event) : Nat :=
  es.countP fun e => match e with
    | .wr _ _ _ => true
    | .acq | .rel | .gdir | .gset _ | .wait _ => false

/-- The reset pulse's lock group (R152), present when `CFG.HAS_RESET = 1`. -/
def resetPulseEvents (c : Cfg) : List Event :=
  if c.hasReset then
    [.acq, .gdir, .gset true, .wait 10, .gset false, .wait 10, .gset true, .wait 50, .rel]
  else []

/-- The trace of a successful INIT (R151): the reset pulse, the bring-up group and the flush of an all-zero
framebuffer. -/
def initEvents (c : Cfg) : List Event :=
  resetPulseEvents c ++
  (.acq :: acked c (bringupWrites c) ++ [.wait 20, .rel]) ++
  (.acq :: acked c (flushWrites c (List.replicate c.fbSize 0x00)) ++ [.rel])

/-- The trace of a successful SHOW of `bytes` (R210, R213). -/
def showEvents (c : Cfg) (bytes : List Byte) : List Event :=
  .acq :: acked c (flushWrites c bytes) ++ [.rel]

/-- How many locks the whole of INIT acquires: the reset pulse's, the bring-up's and the flush's (R151). -/
def initLocks (c : Cfg) : Nat := (if c.hasReset then 1 else 0) + 2

/-- The lock answers in which the arbiter denies `k` tries and then grants one, for each `k` of a list. -/
def grantsAfter (denials : List Nat) : List Bool := denials.flatMap fun k => List.replicate k false ++ [true]

/-- A data transaction's micro-operation with its bytes blanked, any other as it is. -/
def blankChunk : MicroOp → MicroOp
  | .txData chunk => .txData (List.replicate chunk.length 0x00)
  | .command k => .command k
  | .emitCmd b => .emitCmd b
  | .txCmd cmd => .txCmd cmd
  | .wait ms => .wait ms
  | .rstDirOut => .rstDirOut
  | .rstSet level => .rstSet level

/-- The data bytes of a micro-operation. -/
def chunkBytes : MicroOp → List Byte
  | .txData chunk => chunk
  | .command _ | .emitCmd _ | .txCmd _ | .wait _ | .rstDirOut | .rstSet _ => []

/-! ## Ends of operations -/

/-- A state in which the current operation has ended with a response word (R30), and nothing else has changed. -/
def answered (s : State) (w : Word) : State :=
  { s with resp := w, responses := s.responses ++ [w], busy := false, seq := [] }

/-- The answers that are left, and the counters, after `locks` lock tries and `writes` bus writes. -/
def Env.after (e : Env) (locks : Nat) (lockLeft : List Bool) (writes : Nat) (busLeft : List BusResult) : Env :=
  { e with lockAnswers := lockLeft, lockDraws := e.lockDraws + locks,
           busAnswers := busLeft, busDraws := e.busDraws + writes }

/-- Operation words run one after the other, each from the state the last one left. -/
def runWords : List Word → State → Host.Outcome State Fault Refusal
  | [], s => .next s
  | w :: ws, s =>
    match exec (decodeWord w) s with
    | .next t => runWords ws t
    | .fault f => .fault f
    | .refused r => .refused r

end Sys2Proof.Machine
end

