-- ==== Sys2Proof/Certificates/Slice0/Obligations.lean ====
section
/-! DEFINITION. The statements for the provers: one `def Obligations.<Name> : Prop` each. -/

open Sys2Proof Sys2Proof.Machine

/-! ## Encoding -/

/-- Words written out from R83 to R86, R92 and R94 decode to what they stand for (a sanity statement). -/
def Obligations.SampleWordsDecode : Prop :=
  decodeWord 0x10000000#32 = .init ∧ decodeWord 0x2800A005#32 = .setpix 5 10 true ∧
  decodeWord 0x28000FFF#32 = .setpix (BitVec.ofInt 12 (-1)) 0 true ∧ decodeWord 0x38000000#32 = .fill true ∧
  decodeWord 0x40000000#32 = .showFrame ∧ decodeWord 0x500003FF#32 = .rdfb 1023 ∧ decodeWord 0x60000000#32 = .rdstat ∧
  decodeWord 0x29000000#32 = .illegal 0x29000000#32 ∧
  decode (.transaction [0x00, 0xD5, 0x80]) = .ok (.ctrlCmd [0xD5, 0x80]) ∧
  decode (.transaction [0x40, 0x01]) = .ok (.ctrlData [0x01]) ∧
  decode (.command [0xA8, 0x3F]) = .ok (.setMux 0x3F) ∧ decode (.command [0x40]) = .ok .setStartline0

/-- Decoding gives back every instruction that has an encoding, with every operand at every value the encoding admits. -/
def Obligations.DecodeOfEncodeIsIdentity : Prop :=
  ∀ (i : Instr) (e : Encoding), i.encodable = true → encode i = some e → decode e = .ok i

/-- Every encoding that decodes has one meaning, and encoding that meaning gives the same bits back. -/
def Obligations.EncodeOfDecodeIsIdentity : Prop :=
  ∀ (e : Encoding) (i : Instr), decode e = .ok i → i.encodable = true ∧ encode i = some e

/-- R96: a stream of command bytes is read back as the commands that were sent, whatever their arguments are.
(DISPLAY_OFF's byte 0xAE is PRESUMED, log entry 16.) -/
def Obligations.CommandStreamReadsBack : Prop :=
  ∀ ks : List Command, decodeStream (ks.flatMap sentBytes) = .ok ks

/-- R88, R252, R258: the illegal words are exactly those of R88, and each responds ILLEGAL with data 0 in every state and
changes nothing else. -/
def Obligations.IllegalWordHasNoEffect : Prop :=
  ∀ (w : Word) (s : State),
    (decodeWord w = .illegal w ↔ wordIllegal w = true) ∧
    (wordIllegal w = true → exec (decodeWord w) s = .next (answered s 0x10000000#32))

/-- R87, R98: the assembler takes exactly the coordinates of the 12-bit fields, never wraps one, and its word decodes to
SETPIX of those coordinates. -/
def Obligations.AssemblerNeverWraps : Prop :=
  ∀ x y v : Int,
    ((assemble (.setpix x y v)).isSome = true ↔
      (-2048 ≤ x ∧ x ≤ 2047) ∧ (-2048 ≤ y ∧ y ≤ 2047) ∧ (v = 0 ∨ v = 1)) ∧
    (∀ w, assemble (.setpix x y v) = some w →
      ∃ (x' y' : BitVec 12) (v' : Bool), decodeWord w = .setpix x' y' v' ∧ x'.toInt = x ∧ y'.toInt = y ∧
        (v' = true ↔ v = 1))

/-! ## Reset, host port and step -/

/-- R35, R280: the values that power-on reset gives, for every configuration; `State.reset` is that state for the
reference configuration (the model's choice, log entry 1). -/
def Obligations.PowerOnResetValues : Prop :=
  (∀ c : Cfg,
    (State.powerOn c).cfg = c ∧ (State.powerOn c).life = .uninit ∧ (State.powerOn c).lockHeld = false ∧
    (State.powerOn c).rstDriven = false ∧ (State.powerOn c).rstLevel = false ∧ (State.powerOn c).busy = false ∧
    (State.powerOn c).resp = 0x00000000#32 ∧ (State.powerOn c).seq = [] ∧ (State.powerOn c).trace = []) ∧
  State.reset = State.powerOn Cfg.reference

/-- R30, R294: the host writes `REQ` only while `BUSY = 0`; there is no step for a write while `BUSY = 1`. -/
def Obligations.HostWriteOnlyWhileIdle : Prop :=
  ∀ (w : Word) (s : State),
    (s.busy = false → hostWrite w s = .next { s with req := w, busy := true, seq := [.fetch] }) ∧
    (s.busy = true → hostWrite w s = .refused .requestWhileBusy) ∧
    (∀ rest, s.busy = false → s.seq = [] → s.host = .word w :: rest →
      step s = .next { s with host := rest, req := w, busy := true, seq := [.fetch] })

/-- A step runs the decoded instruction: with the fetch pending it is exec of the instruction that `REQ` decodes to, which
is always well formed (R89); with a micro-operation pending it is exec of that one; with a pseudo-operation next in the
host's program and the block idle it is exec of that one. The step takes the item off its list and adds nothing else. -/
def Obligations.StepRunsDecodedInstruction : Prop :=
  ∀ s : State,
    (∀ rest, s.seq = .fetch :: rest →
      (decodeWord s.req).wellFormed s.cfg = true ∧ step s = exec (decodeWord s.req) { s with seq := rest }) ∧
    (∀ i rest, s.seq = .op i :: rest → step s = exec i { s with seq := rest }) ∧
    (∀ p rest, s.seq = [] → s.host = .call p :: rest → step s = exec p.toInstr { s with host := rest })

/-- R280: an idle block with no operation presented waits, and does nothing. -/
def Obligations.IdleBlockWaits : Prop :=
  ∀ s : State, s.seq = [] → s.host = [] → step s = .next s

/-! ## State checks (R251) -/

/-- R251: SETPIX, FILL, SHOW and RDFB outside READY respond NOT_READY, and INIT outside UNINIT responds BAD_STATE; the
response is the only effect. (INITIALIZING is among the states outside READY and UNINIT: the spec gives it no row, since no
host operation can meet it, and the answer there is the model's choice, log entry 22.) -/
def Obligations.StateChecksHaveNoEffect : Prop :=
  ∀ s : State,
    (s.life ≠ .ready →
      (∀ x y v, exec (.setpix x y v) s = .next (answered s 0x20000000#32)) ∧
      (∀ v, exec (.fill v) s = .next (answered s 0x20000000#32)) ∧
      exec .showFrame s = .next (answered s 0x20000000#32) ∧
      (∀ index, exec (.rdfb index) s = .next (answered s 0x20000000#32))) ∧
    (s.life ≠ .uninit → exec .init s = .next (answered s 0x30000000#32))

/-! ## Framebuffer operations -/

/-- R180, R181: MAP answers exactly for the in-range pairs, by the formulas of the rule, inside the framebuffer; it is
one-to-one onto all (index, bit) pairs; and it reads nothing of the configuration but WIDTH and HEIGHT. -/
def Obligations.MapperIsBijection : Prop :=
  ∀ c : Cfg,
    (∀ x y : Int, (mapXY c x y).isSome = true ↔ (0 ≤ x ∧ x < c.width) ∧ (0 ≤ y ∧ y < c.height)) ∧
    (∀ (x y : Int) (index bit : Nat), mapXY c x y = some (index, bit) →
      (index : Int) = (y / 8) * c.width + x ∧ (bit : Int) = y % 8 ∧ index < c.fbSize ∧ bit < 8) ∧
    (∀ index bit : Nat, index < c.fbSize → bit < 8 → ∃! p : Int × Int, mapXY c p.1 p.2 = some (index, bit)) ∧
    (∀ c' : Cfg, c'.width = c.width → c'.height = c.height → ∀ x y : Int, mapXY c' x y = mapXY c x y)

/-- R182, R183, R184 (a), (b): SETPIX of an in-range pair in READY responds OK and gives the pair's bit the value v;
every other bit of that byte, every other byte and everything else but the response keep their values. -/
def Obligations.SetpixInRangeWritesOneBit : Prop :=
  ∀ (s : State) (x y : BitVec 12) (v : Bool) (index bit : Nat) (b : Byte),
    s.life = .ready → mapXY s.cfg x.toInt y.toInt = some (index, bit) → s.readFb index = .ok b →
    ∃ t b', exec (.setpix x y v) s = .next t ∧ t = answered { s with fb := t.fb } 0x00000000#32 ∧
      t.readFb index = .ok b' ∧
      (∀ k, b'.getLsbD k = if k = bit then v else b.getLsbD k) ∧
      (∀ j, j ≠ index → t.readFb j = s.readFb j) ∧
      t.pix x.toInt y.toInt = some v

/-- R183, R184 (c): SETPIX of an out-of-range pair in READY responds OK and changes nothing. -/
def Obligations.SetpixOutOfRangeIsNoOp : Prop :=
  ∀ (s : State) (x y : BitVec 12) (v : Bool),
    s.life = .ready →
    ¬ ((0 ≤ x.toInt ∧ x.toInt < s.cfg.width) ∧ (0 ≤ y.toInt ∧ y.toInt < s.cfg.height)) →
    exec (.setpix x y v) s = .next (answered s 0x00000000#32)

/-- R184 (d), R59: SETPIX twice with the same operands leaves the same framebuffer as once, and so does FILL. -/
def Obligations.SetpixAndFillAreIdempotent : Prop :=
  ∀ (s t u : State) (i : Instr),
    (∃ x y v, i = .setpix x y v) ∨ (∃ v, i = .fill v) → exec i s = .next t → exec i t = .next u → u.fb = t.fb

/-- R186: FILL in READY responds OK, gives every framebuffer byte 0xFF or 0x00, lists FB_SIZE bytes, and changes nothing
else but the response; outside READY it responds NOT_READY and changes nothing else. -/
def Obligations.FillWritesEveryByte : Prop :=
  ∀ (s : State) (v : Bool),
    (s.life = .ready →
      ∃ t, exec (.fill v) s = .next t ∧ t = answered { s with fb := t.fb } 0x00000000#32 ∧
        t.fb.length = s.cfg.fbSize ∧ Memory.wf s.cfg.fbSize t.fb = true ∧
        (∀ i, i < s.cfg.fbSize → t.readFb i = .ok (if v then 0xFF else 0x00))) ∧
    (s.life ≠ .ready → exec (.fill v) s = .next (answered s 0x20000000#32))

/-- R187: after FILL 1 and then FILL 0, the framebuffer is FB_SIZE bytes of 0x00, for every legal CFG. -/
def Obligations.FillOneThenZeroClears : Prop :=
  ∀ s : State, s.life = .ready →
    ∃ t u, exec (.fill true) s = .next t ∧ exec (.fill false) t = .next u ∧
      u.fb.length = s.cfg.fbSize ∧ (∀ i, i < s.cfg.fbSize → u.readFb i = .ok 0x00)

/-- R188: RDFB in READY responds OK with the byte at an index below FB_SIZE, and RANGE with data 0 for every other index;
outside READY it responds NOT_READY. It changes nothing else. -/
def Obligations.RdfbReadsOrRange : Prop :=
  ∀ (s : State) (index : BitVec 16),
    (s.life = .ready → ∀ b, s.readFb index.toNat = .ok b → exec (.rdfb index) s = .next (answered s (b.setWidth 32))) ∧
    (s.life = .ready → s.cfg.fbSize ≤ index.toNat → exec (.rdfb index) s = .next (answered s 0x50000000#32)) ∧
    (s.life ≠ .ready → exec (.rdfb index) s = .next (answered s 0x20000000#32))

/-- R189: after SETPIX x, y, 1 of an in-range pair, RDFB of its byte responds OK with its bit 1, and RDFB of any other
index answers as before. -/
def Obligations.SetpixThenRdfbReadsBack : Prop :=
  ∀ (s : State) (x y : BitVec 12) (i b : Nat),
    s.life = .ready → Memory.full s.cfg.fbSize s.fb = true → mapXY s.cfg x.toInt y.toInt = some (i, b) →
    ∃ t d, exec (.setpix x y true) s = .next t ∧
      exec (.rdfb (BitVec.ofNat 16 i)) t = .next (answered t (BitVec.setWidth 32 (d : Byte))) ∧ d.getLsbD b = true ∧
      (∀ j : BitVec 16, j.toNat ≠ i →
        ∃ w, exec (.rdfb j) s = .next (answered s w) ∧ exec (.rdfb j) t = .next (answered t w))

/-- R158, R29: RDSTAT responds OK with the STATUS byte, bit by bit, in every state, and changes nothing else. (That it does
so in INITIALIZING too, where no host operation can be issued, is the model's choice, log entry 22.) -/
def Obligations.RdstatReportsStatus : Prop :=
  ∀ s : State, ∃ t, exec .rdstat s = .next t ∧ t = answered s t.resp ∧
    t.resp.toNat =
      (match s.life with
        | .uninit => 0
        | .initializing => 1
        | .ready => 2
        | .failed => 3) +
      4 * s.lockHeld.toNat + 8 * s.rstDriven.toNat + 16 * s.rstLevel.toNat

/-! ## Acceptance of INIT and SHOW -/

/-- R150, R210: INIT in UNINIT is accepted: `STATE` becomes INITIALIZING and the pending micro-steps are those of the
rule; SHOW in READY is accepted: the pending micro-steps are the flush and the end. Nothing else changes. (The list of
micro-steps is the model's form of SEQ, log entry 6.) -/
def Obligations.InitAndShowAreAccepted : Prop :=
  ∀ s : State,
    (s.life = .uninit → exec .init s = .next { s with
      life := .initializing
      seq := (if s.cfg.hasReset then [.op (.withLock resetPulseBody)] else []) ++
        [.op (.withLock (bringupBody s.cfg)), .zeroFill, .flush, .complete] }) ∧
    (s.life = .ready → exec .showFrame s = .next { s with seq := [.flush, .complete] })

/-- R154: the bring-up commands are, byte for byte and in order, the table's, and each is well formed under the
configuration. (The first entry's byte 0xAE is PRESUMED: the table itself marks it as general knowledge, log entry 16.) -/
def Obligations.BringupIsTheTable : Prop :=
  ∀ c : Cfg, (bringup c).map Command.bytes = bringupTable c ∧ ∀ k ∈ bringup c, k.wellFormed c = true

/-- R159: the bring-up makes 15 command transactions, 8 of 3 bytes and 7 of 2, under PER_COMMAND, and 23 of 2 bytes under
PER_BYTE, whatever the rest of the configuration. -/
def Obligations.BringupTransactionCounts : Prop :=
  ∀ c : Cfg,
    (c.framing = .perCommand →
      ((bringup c).flatMap fun k => commandTransactions c.framing k.bytes).length = 15 ∧
      ((bringup c).flatMap fun k => commandTransactions c.framing k.bytes).countP (fun w => w.length = 3) = 8 ∧
      ((bringup c).flatMap fun k => commandTransactions c.framing k.bytes).countP (fun w => w.length = 2) = 7) ∧
    (c.framing = .perByte →
      ((bringup c).flatMap fun k => commandTransactions c.framing k.bytes).length = 23 ∧
      ∀ w ∈ (bringup c).flatMap fun k => commandTransactions c.framing k.bytes, w.length = 2)

/-- R211, R212, R213, R215: the flush of FB_SIZE bytes makes PAGES * (3 + ceil_div(WIDTH, CHUNK)) transactions under both
groupings; its data chunks have 1 to 16 bytes, and joined in order they are the framebuffer's bytes, each once. -/
def Obligations.FlushCoversFramebufferOnce : Prop :=
  ∀ (c : Cfg) (bytes : List Byte), bytes.length = c.fbSize →
    (flushBody c bytes).length = c.pages * (3 + ceilDiv c.width c.chunk) ∧
    writeCount ((flushBody c bytes).flatMap (microEvents c)) = c.pages * (3 + ceilDiv c.width c.chunk) ∧
    (flushBody c bytes).all (MicroOp.wellFormed c) = true ∧
    (flushBody c bytes).flatMap chunkBytes = bytes

/-- R130: nothing about a flush but its data bytes depends on the framebuffer's contents: two framebuffers give lists of
micro-operations that agree in everything but the bytes of the chunks, and each chunk in its length. -/
def Obligations.FlushShapeIgnoresContents : Prop :=
  ∀ (c : Cfg) (bytes bytes' : List Byte), bytes.length = bytes'.length →
    (flushBody c bytes).map blankChunk = (flushBody c bytes').map blankChunk

/-! ## Micro-operations -/

/-- R120: LOCK_ACQUIRE with the lock free makes one try: granted, the lock is held and ACQ is the event; denied, there is
no event and no change, and the try comes again. -/
def Obligations.LockAcquireTriesOnce : Prop :=
  ∀ s : State, s.lockHeld = false →
    (s.lockAnswer = true →
      exec .lockAcquire s = .next { s with lockHeld := true, trace := s.trace ++ [.acq], env := s.lockDrawn.env }) ∧
    (s.lockAnswer = false →
      exec .lockAcquire s = .next { s with seq := .op .lockAcquire :: s.seq, env := s.lockDrawn.env })

/-- R120: whatever number k of tries is denied before one is granted, the machine gets there in k + 1 steps with one ACQ
event, and nothing but the lock, the trace and the arbiter's answers has changed. -/
def Obligations.LockAcquireRetriesUntilGranted : Prop :=
  ∀ (s : State) (rest : List SeqItem) (k : Nat) (left : List Bool),
    s.lockHeld = false → s.seq = .op .lockAcquire :: rest →
    s.env.lockAnswers = List.replicate k false ++ true :: left →
    Sys2Proof.core.run (k + 1) s = .next { s with
      lockHeld := true
      seq := rest
      trace := s.trace ++ [.acq]
      env := { s.env with lockAnswers := left, lockDraws := s.env.lockDraws + (k + 1) } }

/-- R121: LOCK_RELEASE with the lock held frees it, with one REL event, and changes nothing else; release never fails. -/
def Obligations.LockReleaseFreesTheLock : Prop :=
  ∀ s : State, s.lockHeld = true →
    exec .lockRelease s = .next { s with lockHeld := false, trace := s.trace ++ [.rel] }

/-- R122: TX_CMD, and with it a command transaction of the table, makes one bus write of [0x00] ++ cmd to CFG.ADDR; on
FAIL it raises BusFail: the rest of the operation's micro-steps is dropped for the release and the catch. Nothing else
changes. -/
def Obligations.CommandTransactionIsOneWrite : Prop :=
  ∀ (i : Instr) (s : State) (cmd : List Byte), i = .txCmd cmd ∨ i = .ctrlCmd cmd → s.lockHeld = true → 1 ≤ cmd.length →
    (s.busAnswer = .ack →
      exec i s = .next { s with
        trace := s.trace ++ [.wr s.cfg.addr (0x00 :: cmd) .ack], env := s.busDrawn.env }) ∧
    (s.busAnswer = .fail →
      exec i s = .next { s with
        trace := s.trace ++ [.wr s.cfg.addr (0x00 :: cmd) .fail], env := s.busDrawn.env,
        seq := [.op .lockRelease, .catchFail] })

/-- R123: TX_DATA, and with it a data transaction of the table, makes one bus write of [0x40] ++ chunk to CFG.ADDR for a
chunk of 1 to 16 bytes; on FAIL it raises BusFail. Nothing else changes. -/
def Obligations.DataTransactionIsOneWrite : Prop :=
  ∀ (i : Instr) (s : State) (chunk : List Byte), i = .txData chunk ∨ i = .ctrlData chunk → s.lockHeld = true →
    1 ≤ chunk.length → chunk.length ≤ 16 →
    (s.busAnswer = .ack →
      exec i s = .next { s with
        trace := s.trace ++ [.wr s.cfg.addr (0x40 :: chunk) .ack], env := s.busDrawn.env }) ∧
    (s.busAnswer = .fail →
      exec i s = .next { s with
        trace := s.trace ++ [.wr s.cfg.addr (0x40 :: chunk) .fail], env := s.busDrawn.env,
        seq := [.op .lockRelease, .catchFail] })

/-- R125: EMIT_CMD of a command of one or two bytes: under PER_COMMAND one command transaction of all of them; under
PER_BYTE one of the opcode byte, with TX_CMD of the argument byte, if there is one, as the next micro-step (the model's
way of making each bus write a step, log entry 7), which a failure on the opcode byte drops. (R125's operand is one command
of R94; that any other list of one or two bytes is sent in the same way is the model's choice, log entry 13.) -/
def Obligations.EmitCmdFollowsTheGrouping : Prop :=
  ∀ (s : State) (c : List Byte), s.lockHeld = true → c.length = 1 ∨ c.length = 2 →
    exec (.emitCmd c) s = .next { s with
      trace := s.trace ++ [.wr s.cfg.addr
        (0x00 :: (match s.cfg.framing with
          | .perCommand => c
          | .perByte => c.take 1)) s.busAnswer]
      env := s.busDrawn.env
      seq := match s.busAnswer with
        | .fail => [.op .lockRelease, .catchFail]
        | .ack => (match s.cfg.framing with
          | .perCommand => []
          | .perByte => (c.drop 1).map fun a => .op (.txCmd [a])) ++ s.seq }

/-- R94, R95, R125: each of the 18 controller commands, at every operand, answers a next state with the lock held: one bus
write to CFG.ADDR of 0x00 and the command's bytes (under PER_BYTE its opcode byte, the argument's TX_CMD coming next, log
entry 7), and nothing else changes but what a failed write drops. (The block sends each command with the one argument of
R94; that any other operand is sent too is the model's choice, log entry 13. DISPLAY_OFF's byte 0xAE is PRESUMED, log entry
16.) -/
def Obligations.ControllerCommandSendsItsBytes : Prop :=
  ∀ (k : Command) (s : State), s.lockHeld = true →
    k.bytes = sentBytes k ∧
    exec k.toInstr s = .next { s with
      trace := s.trace ++ [.wr s.cfg.addr
        (0x00 :: (match s.cfg.framing with
          | .perCommand => sentBytes k
          | .perByte => (sentBytes k).take 1)) s.busAnswer]
      env := s.busDrawn.env
      seq := match s.busAnswer with
        | .fail => [.op .lockRelease, .catchFail]
        | .ack => (match s.cfg.framing with
          | .perCommand => []
          | .perByte => ((sentBytes k).drop 1).map fun a => .op (.txCmd [a])) ++ s.seq }

/-- R126, R127: WAIT records its event; RST_DIR_OUT and RST_SET, where there is a reset line, write RST_DRIVEN and
RST_LEVEL with their events; nothing else changes. -/
def Obligations.WaitAndResetLine : Prop :=
  ∀ s : State,
    (∀ ms, 1 ≤ ms → exec (.wait ms) s = .next { s with trace := s.trace ++ [.wait ms] }) ∧
    (s.cfg.hasReset = true →
      exec .rstDirOut s = .next { s with rstDriven := true, trace := s.trace ++ [.gdir] } ∧
      ∀ l, exec (.rstSet l) s = .next { s with rstLevel := l, trace := s.trace ++ [.gset l] })

/-- The model's choice (log entry 8): a micro-operation outside its precondition or its operand's domain (R120 to R123,
R125 to R127), to which the spec gives no effect, is refused by name. -/
def Obligations.PreconditionsAreRefused : Prop :=
  ∀ s : State,
    (s.lockHeld = true → exec .lockAcquire s = .refused .lockAlreadyHeld) ∧
    (s.lockHeld = false →
      exec .lockRelease s = .refused .lockNotHeld ∧
      (∀ cmd, 1 ≤ cmd.length → exec (.txCmd cmd) s = .refused .lockNotHeld ∧
        exec (.ctrlCmd cmd) s = .refused .lockNotHeld) ∧
      (∀ chunk, 1 ≤ chunk.length → chunk.length ≤ 16 → exec (.txData chunk) s = .refused .lockNotHeld ∧
        exec (.ctrlData chunk) s = .refused .lockNotHeld) ∧
      (∀ c, c.length = 1 ∨ c.length = 2 → exec (.emitCmd c) s = .refused .lockNotHeld) ∧
      (∀ k : Command, exec k.toInstr s = .refused .lockNotHeld)) ∧
    exec (.txCmd []) s = .refused .operandOutOfDomain ∧ exec (.ctrlCmd []) s = .refused .operandOutOfDomain ∧
    (∀ chunk, chunk.length = 0 ∨ 16 < chunk.length → exec (.txData chunk) s = .refused .operandOutOfDomain ∧
      exec (.ctrlData chunk) s = .refused .operandOutOfDomain) ∧
    (∀ c, c.length = 0 ∨ 2 < c.length → exec (.emitCmd c) s = .refused .operandOutOfDomain) ∧
    exec (.wait 0) s = .refused .operandOutOfDomain ∧
    (s.cfg.hasReset = false →
      exec .rstDirOut s = .refused .noResetLine ∧ ∀ l, exec (.rstSet l) s = .refused .noResetLine)

/-- R128: WITH_LOCK puts the acquisition, the body and the release in front of the pending micro-steps. -/
def Obligations.WithLockScopesItsBody : Prop :=
  ∀ (s : State) (body : List MicroOp),
    exec (.withLock body) s = .next { s with
      seq := .op .lockAcquire :: body.map (fun m => .op m.toInstr) ++ .op .lockRelease :: s.seq }

/-- R128: a lock group whose lock is granted after k denied tries and whose writes all answer ACK makes the trace ACQ, the
body's events in order, REL; then the lock is free and the micro-steps after the group are pending.
(DISPLAY_OFF's byte 0xAE is PRESUMED, log entry 16.) -/
def Obligations.LockGroupRunsToItsEnd : Prop :=
  ∀ (s : State) (body : List MicroOp) (rest : List SeqItem) (k : Nat) (lockLeft : List Bool) (busLeft : List BusResult),
    s.lockHeld = false → s.seq = .op (.withLock body) :: rest → body.all (MicroOp.wellFormed s.cfg) = true →
    s.env.lockAnswers = List.replicate k false ++ true :: lockLeft →
    s.env.busAnswers = List.replicate (writeCount (body.flatMap (microEvents s.cfg))) .ack ++ busLeft →
    ∃ t, Reaches s t ∧ t.seq = rest ∧ t.lockHeld = false ∧
      t.trace = s.trace ++ (.acq :: body.flatMap (microEvents s.cfg) ++ [.rel]) ∧
      t.env = s.env.after (k + 1) lockLeft (writeCount (body.flatMap (microEvents s.cfg))) busLeft ∧
      t.cfg = s.cfg ∧ t.life = s.life ∧ t.fb = s.fb ∧ t.busy = s.busy ∧ t.req = s.req ∧ t.resp = s.resp ∧
      t.responses = s.responses ∧ t.host = s.host ∧ t.hostValue = s.hostValue

/-- R128, R129: if the first failing write of a lock group is the one after `pre`, the trace is ACQ, the body's events
before it, that write with FAIL, and REL directly after it; no later micro-operation runs, the lock is free, and what is
pending is the operation's `catch BusFail`.
(DISPLAY_OFF's byte 0xAE is PRESUMED, log entry 16.) -/
def Obligations.LockGroupStopsAtTheFirstFailure : Prop :=
  ∀ (s : State) (body : List MicroOp) (rest : List SeqItem) (k : Nat) (lockLeft : List Bool) (busLeft : List BusResult)
    (pre post : List Event) (w : List Byte),
    s.lockHeld = false → s.seq = .op (.withLock body) :: rest → body.all (MicroOp.wellFormed s.cfg) = true →
    s.env.lockAnswers = List.replicate k false ++ true :: lockLeft →
    body.flatMap (microEvents s.cfg) = pre ++ .wr s.cfg.addr w .ack :: post →
    s.env.busAnswers = List.replicate (writeCount pre) .ack ++ .fail :: busLeft →
    ∃ t, Reaches s t ∧ t.seq = [.catchFail] ∧ t.lockHeld = false ∧
      t.trace = s.trace ++ (.acq :: pre ++ [.wr s.cfg.addr w .fail, .rel]) ∧
      t.env = s.env.after (k + 1) lockLeft (writeCount pre + 1) busLeft ∧
      t.cfg = s.cfg ∧ t.life = s.life ∧ t.fb = s.fb ∧ t.busy = s.busy ∧ t.req = s.req ∧ t.resp = s.resp ∧
      t.responses = s.responses ∧ t.host = s.host ∧ t.hostValue = s.hostValue

/-- R255: a bus write that answers FAIL, in TX_CMD or in TX_DATA, ends the operation in two more steps: nothing else of
it runs, REL comes directly after the failing WR, RESP is 0x40000000, BUSY is 0, STATE is FAILED if the operation is INIT
and unchanged otherwise, and nothing else has changed. (That INIT is the running operation exactly in INITIALIZING is
deduced, log entry 6.) -/
def Obligations.BusFailureEndsTheOperation : Prop :=
  ∀ (s : State) (i : Instr) (w : List Byte), s.lockHeld = true → s.busAnswer = .fail →
    (∃ cmd : List Byte, 1 ≤ cmd.length ∧ i = .txCmd cmd ∧ w = 0x00 :: cmd) ∨
    (∃ chunk : List Byte, (1 ≤ chunk.length ∧ chunk.length ≤ 16) ∧ i = .txData chunk ∧ w = 0x40 :: chunk) →
    ∃ t, exec i s = .next t ∧
      Sys2Proof.core.run 2 t = .next { s with
        life := (if s.life = .initializing then .failed else s.life)
        lockHeld := false
        trace := s.trace ++ [.wr s.cfg.addr w .fail, .rel]
        resp := 0x40000000#32
        responses := s.responses ++ [0x40000000#32]
        busy := false
        seq := []
        env := s.busDrawn.env }

/-! ## Whole operations -/

/-- R210, R213, R215: a SHOW accepted in READY, with the lock granted after k denied tries and every write answering ACK,
ends with RESP OK and the trace of the rule over the framebuffer's bytes; STATE and FB are not written. -/
def Obligations.ShowSendsTheFramebuffer : Prop :=
  ∀ (s : State) (bytes : List Byte) (k : Nat) (lockLeft : List Bool) (busLeft : List BusResult),
    Invariant s → s.life = .ready → s.seq = [.fetch] → s.req = 0x40000000#32 →
    s.fb.dump s.cfg.fbSize = .ok bytes →
    s.env.lockAnswers = List.replicate k false ++ true :: lockLeft →
    s.env.busAnswers = List.replicate (s.cfg.pages * (3 + ceilDiv s.cfg.width s.cfg.chunk)) .ack ++ busLeft →
    Reaches s (answered { s with
      trace := s.trace ++ showEvents s.cfg bytes
      env := s.env.after (k + 1) lockLeft (s.cfg.pages * (3 + ceilDiv s.cfg.width s.cfg.chunk)) busLeft } 0x00000000#32)

/-- R214: a SHOW whose first failing write is the one after `pre` ends with RESP BUS_FAIL: no later write is made, REL
follows the failing one, and STATE and FB are unchanged. -/
def Obligations.ShowStopsAtAFailedWrite : Prop :=
  ∀ (s : State) (bytes : List Byte) (k : Nat) (lockLeft : List Bool) (busLeft : List BusResult)
    (pre post : List (List Byte)) (w : List Byte),
    Invariant s → s.life = .ready → s.seq = [.fetch] → s.req = 0x40000000#32 →
    s.fb.dump s.cfg.fbSize = .ok bytes →
    s.env.lockAnswers = List.replicate k false ++ true :: lockLeft →
    flushWrites s.cfg bytes = pre ++ w :: post →
    s.env.busAnswers = List.replicate pre.length .ack ++ .fail :: busLeft →
    Reaches s (answered { s with
      trace := s.trace ++ (.acq :: acked s.cfg pre ++ [.wr s.cfg.addr w .fail, .rel])
      env := s.env.after (k + 1) lockLeft (pre.length + 1) busLeft } 0x40000000#32)

/-- R150, R151, R284: an INIT accepted in UNINIT, with each lock granted after some denied tries and every write answering
ACK, ends in READY with RESP OK, every framebuffer byte 0x00, the lock free, RST_DRIVEN = RST_LEVEL = CFG.HAS_RESET, and
the trace of the rule.
(DISPLAY_OFF's byte 0xAE in the bring-up is PRESUMED, log entry 16.) -/
def Obligations.InitBringsTheBlockUp : Prop :=
  ∀ (s : State) (denials : List Nat) (lockLeft : List Bool) (busLeft : List BusResult),
    Invariant s → s.life = .uninit → s.seq = [.fetch] → s.req = 0x10000000#32 →
    denials.length = initLocks s.cfg →
    s.env.lockAnswers = grantsAfter denials ++ lockLeft →
    s.env.busAnswers = List.replicate (writeCount (initEvents s.cfg)) .ack ++ busLeft →
    Reaches s (answered { s with
      life := .ready
      rstDriven := s.cfg.hasReset
      rstLevel := s.cfg.hasReset
      fb := Memory.filled s.cfg.fbSize 0x00
      trace := s.trace ++ initEvents s.cfg
      env := s.env.after (denials.length + denials.sum) lockLeft (writeCount (initEvents s.cfg)) busLeft } 0x00000000#32)

/-- R157: an INIT whose first failing write is one of the bring-up, the one after `pre`, ends in FAILED with RESP
BUS_FAIL: no settle wait, no flush, REL after the failing write, and the framebuffer is as it was.
(DISPLAY_OFF's byte 0xAE in the bring-up is PRESUMED, log entry 16.) -/
def Obligations.InitFailsInTheBringup : Prop :=
  ∀ (s : State) (denials : List Nat) (lockLeft : List Bool) (busLeft : List BusResult)
    (pre post : List (List Byte)) (w : List Byte),
    Invariant s → s.life = .uninit → s.seq = [.fetch] → s.req = 0x10000000#32 →
    denials.length + 1 = initLocks s.cfg →
    s.env.lockAnswers = grantsAfter denials ++ lockLeft →
    bringupWrites s.cfg = pre ++ w :: post →
    s.env.busAnswers = List.replicate pre.length .ack ++ .fail :: busLeft →
    Reaches s (answered { s with
      life := .failed
      rstDriven := s.cfg.hasReset
      rstLevel := s.cfg.hasReset
      trace := s.trace ++ resetPulseEvents s.cfg ++ (.acq :: acked s.cfg pre ++ [.wr s.cfg.addr w .fail, .rel])
      env := s.env.after (denials.length + denials.sum) lockLeft (pre.length + 1) busLeft } 0x40000000#32)

/-- R157: an INIT whose bring-up succeeds and whose flush fails at the write after `pre` ends in FAILED with RESP BUS_FAIL
and an all-zero framebuffer.
(DISPLAY_OFF's byte 0xAE in the bring-up is PRESUMED, log entry 16.) -/
def Obligations.InitFailsInTheFlush : Prop :=
  ∀ (s : State) (denials : List Nat) (lockLeft : List Bool) (busLeft : List BusResult)
    (pre post : List (List Byte)) (w : List Byte),
    Invariant s → s.life = .uninit → s.seq = [.fetch] → s.req = 0x10000000#32 →
    denials.length = initLocks s.cfg →
    s.env.lockAnswers = grantsAfter denials ++ lockLeft →
    flushWrites s.cfg (List.replicate s.cfg.fbSize 0x00) = pre ++ w :: post →
    s.env.busAnswers = List.replicate ((bringupWrites s.cfg).length + pre.length) .ack ++ .fail :: busLeft →
    Reaches s (answered { s with
      life := .failed
      rstDriven := s.cfg.hasReset
      rstLevel := s.cfg.hasReset
      fb := Memory.filled s.cfg.fbSize 0x00
      trace := s.trace ++ resetPulseEvents s.cfg ++
        (.acq :: acked s.cfg (bringupWrites s.cfg) ++ [.wait 20, .rel]) ++
        (.acq :: acked s.cfg pre ++ [.wr s.cfg.addr w .fail, .rel])
      env := s.env.after (denials.length + denials.sum) lockLeft
        ((bringupWrites s.cfg).length + pre.length + 1) busLeft } 0x40000000#32)

/-! ## Rules about every step -/

/-- The invariant holds right after power-on reset, for every configuration. -/
def Obligations.PowerOnResetMeetsInv : Prop := ∀ c : Cfg, Invariant (State.powerOn c)

/-- The invariant is kept by every step, from every state that meets it. -/
def Obligations.StepKeepsInv : Prop := ∀ s t : State, Invariant s → step s = .next t → Invariant t

/-- In a state that meets the invariant, with a host program of well-formed pseudo-operations, the machine goes on: no
fault and no refusal, and the rest of the host's program is well formed again. -/
def Obligations.InvStatesNeverStop : Prop :=
  ∀ s : State, Invariant s → hostOk s = true → ∃ t, step s = .next t ∧ hostOk t = true

/-- R25, R290: the only changes of STATE: UNINIT to INITIALIZING when INIT is accepted, INITIALIZING to READY at INIT's
normal end, INITIALIZING to FAILED at its `catch BusFail`. READY and FAILED are never left, and UNINIT is never entered. -/
def Obligations.StateChangesOnlyAsTheRuleSays : Prop :=
  ∀ s t : State, Invariant s → step s = .next t →
    t.life = s.life ∨
    (s.life = .uninit ∧ t.life = .initializing ∧ s.seq = [.fetch] ∧ decodeWord s.req = .init) ∨
    (s.life = .initializing ∧ t.life = .ready ∧ s.seq = [.complete] ∧ t.resp = 0x00000000#32) ∨
    (s.life = .initializing ∧ t.life = .failed ∧ s.seq = [.catchFail] ∧ t.resp = 0x40000000#32)

/-- R23: no step changes the configuration. -/
def Obligations.ConfigurationNeverChanges : Prop := ∀ s t : State, step s = .next t → t.cfg = s.cfg

/-- R11, R12, R124: a step adds at most one event to the trace and removes none; a bus write is addressed to CFG.ADDR,
begins with 0x00 or 0x40, has at least one byte after it (at most 16 after 0x40), and is made while LOCK_HELD = 1. -/
def Obligations.EveryStepAddsAtMostOneFormedEvent : Prop :=
  ∀ s t : State, step s = .next t →
    t.trace = s.trace ∨
    ∃ e, t.trace = s.trace ++ [e] ∧ writeFormed s.cfg.addr e = true ∧
      (∀ a bytes r, e = .wr a bytes r → s.lockHeld = true)

/-- R90, R91: a step writes RESP only together with the record of responses, and what it writes has CODE 0..5, zeros in
[27:8], and DATA 0 unless CODE is OK. -/
def Obligations.ResponsesAreFormed : Prop :=
  ∀ s t : State, step s = .next t →
    (t.responses = s.responses ∧ t.resp = s.resp) ∨
    (t.responses = s.responses ++ [t.resp] ∧ t.resp.extractLsb' 8 20 = 0 ∧ (t.resp.extractLsb' 28 4).toNat ≤ 5 ∧
      (t.resp.extractLsb' 28 4 ≠ 0 → t.resp.extractLsb' 0 8 = 0))

/-- R26, R31: no operation ends with the lock held, so RDSTAT responds with LOCK_HELD 0, and never with STATE 1. -/
def Obligations.NoOperationEndsHoldingTheLock : Prop :=
  ∀ s t : State, Invariant s → step s = .next t →
    (t.busy = false → t.lockHeld = false) ∧
    (s.seq = [.fetch] → decodeWord s.req = .rdstat →
      t.resp.getLsbD 2 = false ∧ t.resp.extractLsb' 0 2 ≠ 1#2)

/-! ## Host pseudo-operations -/

/-- R230: a pseudo-operation touches nothing of the block: only the host's program, the host's value and the agents'
answers can change. -/
def Obligations.PseudoOperationsLeaveTheBlockAlone : Prop :=
  ∀ (p : PseudoOp) (s t : State), exec p.toInstr s = .next t →
    t = { s with host := t.host, hostValue := t.hostValue, env := t.env }

/-- R231: DRAW_GLYPH_R emits, for the '1' cells in rows from the top and columns from the left, the words of SETPIX x+c,
y+r, 1, without the cells outside the 12-bit field; the words stand in front of the host's program (the model's choice of
where emitted words go, log entry 10). -/
def Obligations.DrawGlyphREmitsItsCells : Prop :=
  ∀ (s : State) (x y : Int) (g : GlyphR),
    ∃ ws : List Word, exec (.drawGlyphR x y g) s = .next { s with host := ws.map .word ++ s.host } ∧
      ws.map decodeWord = (List.finRange 5).flatMap fun (r : Fin 5) => (List.finRange 5).flatMap fun (c : Fin 5) =>
        if (g.rows[r])[c] = true ∧ (-2048 ≤ x + (c : Nat) ∧ x + (c : Nat) ≤ 2047) ∧
            (-2048 ≤ y + (r : Nat) ∧ y + (r : Nat) ≤ 2047) then
          [Instr.setpix (BitVec.ofInt 12 (x + (c : Nat))) (BitVec.ofInt 12 (y + (r : Nat))) true]
        else []

/-- R232: DRAW_GLYPH_C emits, for the 1 bits in columns from the left and rows 0..6 from the top, the words of SETPIX x+c,
y+r, 1, without the cells outside the 12-bit field (where the words go: log entry 10). -/
def Obligations.DrawGlyphCEmitsItsCells : Prop :=
  ∀ (s : State) (x y : Int) (g : GlyphC),
    ∃ ws : List Word, exec (.drawGlyphC x y g) s = .next { s with host := ws.map .word ++ s.host } ∧
      ws.map decodeWord = (List.finRange 5).flatMap fun (c : Fin 5) => (List.finRange 7).flatMap fun (r : Fin 7) =>
        if (g.cols[c] >>> (r : Nat)) &&& 1#8 = 1#8 ∧ (-2048 ≤ x + (c : Nat) ∧ x + (c : Nat) ≤ 2047) ∧
            (-2048 ≤ y + (r : Nat) ∧ y + (r : Nat) ≤ 2047) then
          [Instr.setpix (BitVec.ofInt 12 (x + (c : Nat))) (BitVec.ofInt 12 (y + (r : Nat))) true]
        else []

/-- R233: running the words of a glyph of either format in READY only sets bits: afterwards a pixel is on exactly if it
was on before or is one of the glyph's '1' cells. -/
def Obligations.GlyphOnlySetsBits : Prop :=
  ∀ (s : State) (x y : Int) (gl : Glyph), s.life = .ready → Memory.full s.cfg.fbSize s.fb = true →
    ∃ t, runWords (glyphWords x y gl) s = .next t ∧
      ∀ px py : Int, inRange s.cfg px py = true →
        ∃ old : Bool, s.pix px py = some old ∧
          ∃ new : Bool, t.pix px py = some new ∧
            (new = true ↔ old = true ∨
              match gl with
              | .rowMajor g => ∃ r c : Fin 5, (g.rows[r])[c] = true ∧ px = x + (c : Nat) ∧ py = y + (r : Nat)
              | .colMajor g => ∃ (c : Fin 5) (r : Fin 7), (g.cols[c] >>> (r : Nat)) &&& 1#8 = 1#8 ∧
                  px = x + (c : Nat) ∧ py = y + (r : Nat))

/-- R234: DRAW_TEXT of the empty string changes nothing; a longer string emits its first character's glyph at the cursor,
then the rest of the string with the cursor advanced by 5 + spacing (where the words go: log entry 10). -/
def Obligations.DrawTextAdvancesTheCursor : Prop :=
  ∀ (s : State) (x y : Int) (font : Font) (spacing : Int), font.hasDefault = true →
    exec (.drawText [] x y font spacing) s = .next s ∧
    ∀ (ch : Char) (rest : List Char), ∃ (g : Glyph) (ws : List HostItem),
      exec (.lookup font ch) s = .next { s with hostValue := .glyph g } ∧
      exec (.drawText rest (x + 5 + spacing) y font spacing) s = .next { s with host := ws ++ s.host } ∧
      exec (.drawText (ch :: rest) x y font spacing) s = .next { s with
        host := (match g with
          | .rowMajor g => glyphRWords x y g
          | .colMajor g => glyphCWords x y g).map .word ++ ws ++ s.host }

/-- R235: LOOKUP answers the font's entry for the character, or the font's default glyph, ' ' for a row-major font and '?'
for a column-major one; a font without its default glyph is refused (where the answer is kept: log entry 10). -/
def Obligations.LookupFallsBackToTheDefault : Prop :=
  ∀ (s : State) (ch : Char) (es : List (Char × GlyphR)) (fs : List (Char × GlyphC)),
    (∀ d, es.lookup ' ' = some d → exec (.lookup (.rowMajor es) ch) s = .next { s with
      hostValue := .glyph (.rowMajor ((es.lookup ch).getD d)) }) ∧
    (es.lookup ' ' = none → exec (.lookup (.rowMajor es) ch) s = .refused .fontWithoutDefault) ∧
    (∀ d, fs.lookup '?' = some d → exec (.lookup (.colMajor fs) ch) s = .next { s with
      hostValue := .glyph (.colMajor ((fs.lookup ch).getD d)) }) ∧
    (fs.lookup '?' = none → exec (.lookup (.colMajor fs) ch) s = .refused .fontWithoutDefault)

/-- R236: CENTER_X answers max(0, floor((WIDTH - w) / 2)): 0 where w is at least WIDTH, and otherwise the n with
2n ≤ WIDTH - w < 2n + 2; it emits no word (where the answer is kept: log entry 10). -/
def Obligations.CenterXIsTheFloorOfHalf : Prop :=
  ∀ (s : State) (w : Nat), ∃ n : Int, exec (.centerX w) s = .next { s with hostValue := .number n } ∧
    (s.cfg.width ≤ w → n = 0) ∧
    (w ≤ s.cfg.width → 2 * n ≤ (s.cfg.width : Int) - w ∧ (s.cfg.width : Int) - w < 2 * n + 2)

/-- R237: PROBE_LOCK makes one try: granted while the block does not hold the lock, it ends with success; denied, it ends
without if its timeout has elapsed, and is tried again if not. It emits no word. (One try and one look at the clock for
each step, and no grant while the block holds the lock: the model's choice, log entry 11.) -/
def Obligations.ProbeLockTriesUntilTimeout : Prop :=
  ∀ (s : State) (timeout : Nat),
    (s.lockAnswer = true → s.lockHeld = false →
      exec (.probeLock timeout) s = .next { s with hostValue := .probe true, env := s.lockDrawn.env }) ∧
    (s.lockAnswer = false ∨ s.lockHeld = true →
      (s.lockDrawn.clockAnswer timeout = true →
        exec (.probeLock timeout) s = .next { s with hostValue := .probe false, env := s.lockDrawn.clockDrawn.env }) ∧
      (s.lockDrawn.clockAnswer timeout = false →
        exec (.probeLock timeout) s = .next { s with
          host := .call (.probeLock timeout) :: s.host, env := s.lockDrawn.clockDrawn.env }))
end

