-- ==== Sys2Proof/Laws/State.lean ====
section
/-! SUPPORT. One lemma per field of the state for each of its named updates, true by definition. -/

namespace Sys2Proof.Machine

variable (s : State)

/-! ## `State.emit` -/

@[simp] theorem State.emit_cfg (e : Event) : (s.emit e).cfg = s.cfg := rfl
@[simp] theorem State.emit_life (e : Event) : (s.emit e).life = s.life := rfl
@[simp] theorem State.emit_lockHeld (e : Event) : (s.emit e).lockHeld = s.lockHeld := rfl
@[simp] theorem State.emit_rstDriven (e : Event) : (s.emit e).rstDriven = s.rstDriven := rfl
@[simp] theorem State.emit_rstLevel (e : Event) : (s.emit e).rstLevel = s.rstLevel := rfl
@[simp] theorem State.emit_fb (e : Event) : (s.emit e).fb = s.fb := rfl
@[simp] theorem State.emit_busy (e : Event) : (s.emit e).busy = s.busy := rfl
@[simp] theorem State.emit_req (e : Event) : (s.emit e).req = s.req := rfl
@[simp] theorem State.emit_resp (e : Event) : (s.emit e).resp = s.resp := rfl
@[simp] theorem State.emit_seq (e : Event) : (s.emit e).seq = s.seq := rfl
@[simp] theorem State.emit_trace (e : Event) : (s.emit e).trace = s.trace ++ [e] := rfl
@[simp] theorem State.emit_responses (e : Event) : (s.emit e).responses = s.responses := rfl
@[simp] theorem State.emit_host (e : Event) : (s.emit e).host = s.host := rfl
@[simp] theorem State.emit_hostValue (e : Event) : (s.emit e).hostValue = s.hostValue := rfl
@[simp] theorem State.emit_env (e : Event) : (s.emit e).env = s.env := rfl

/-! ## `State.respond` -/

@[simp] theorem State.respond_cfg (code : RespCode) (data : Byte) : (s.respond code data).cfg = s.cfg := rfl
@[simp] theorem State.respond_life (code : RespCode) (data : Byte) : (s.respond code data).life = s.life := rfl
@[simp] theorem State.respond_lockHeld (code : RespCode) (data : Byte) : (s.respond code data).lockHeld = s.lockHeld := rfl
@[simp] theorem State.respond_rstDriven (code : RespCode) (data : Byte) : (s.respond code data).rstDriven = s.rstDriven := rfl
@[simp] theorem State.respond_rstLevel (code : RespCode) (data : Byte) : (s.respond code data).rstLevel = s.rstLevel := rfl
@[simp] theorem State.respond_fb (code : RespCode) (data : Byte) : (s.respond code data).fb = s.fb := rfl
@[simp] theorem State.respond_busy (code : RespCode) (data : Byte) : (s.respond code data).busy = false := rfl
@[simp] theorem State.respond_req (code : RespCode) (data : Byte) : (s.respond code data).req = s.req := rfl
@[simp] theorem State.respond_resp (code : RespCode) (data : Byte) : (s.respond code data).resp = responseWord code data := rfl
@[simp] theorem State.respond_seq (code : RespCode) (data : Byte) : (s.respond code data).seq = [] := rfl
@[simp] theorem State.respond_trace (code : RespCode) (data : Byte) : (s.respond code data).trace = s.trace := rfl
@[simp] theorem State.respond_responses (code : RespCode) (data : Byte) : (s.respond code data).responses = s.responses ++ [responseWord code data] := rfl
@[simp] theorem State.respond_host (code : RespCode) (data : Byte) : (s.respond code data).host = s.host := rfl
@[simp] theorem State.respond_hostValue (code : RespCode) (data : Byte) : (s.respond code data).hostValue = s.hostValue := rfl
@[simp] theorem State.respond_env (code : RespCode) (data : Byte) : (s.respond code data).env = s.env := rfl

/-! ## `State.push` -/

@[simp] theorem State.push_cfg (items : List SeqItem) : (s.push items).cfg = s.cfg := rfl
@[simp] theorem State.push_life (items : List SeqItem) : (s.push items).life = s.life := rfl
@[simp] theorem State.push_lockHeld (items : List SeqItem) : (s.push items).lockHeld = s.lockHeld := rfl
@[simp] theorem State.push_rstDriven (items : List SeqItem) : (s.push items).rstDriven = s.rstDriven := rfl
@[simp] theorem State.push_rstLevel (items : List SeqItem) : (s.push items).rstLevel = s.rstLevel := rfl
@[simp] theorem State.push_fb (items : List SeqItem) : (s.push items).fb = s.fb := rfl
@[simp] theorem State.push_busy (items : List SeqItem) : (s.push items).busy = s.busy := rfl
@[simp] theorem State.push_req (items : List SeqItem) : (s.push items).req = s.req := rfl
@[simp] theorem State.push_resp (items : List SeqItem) : (s.push items).resp = s.resp := rfl
@[simp] theorem State.push_seq (items : List SeqItem) : (s.push items).seq = items ++ s.seq := rfl
@[simp] theorem State.push_trace (items : List SeqItem) : (s.push items).trace = s.trace := rfl
@[simp] theorem State.push_responses (items : List SeqItem) : (s.push items).responses = s.responses := rfl
@[simp] theorem State.push_host (items : List SeqItem) : (s.push items).host = s.host := rfl
@[simp] theorem State.push_hostValue (items : List SeqItem) : (s.push items).hostValue = s.hostValue := rfl
@[simp] theorem State.push_env (items : List SeqItem) : (s.push items).env = s.env := rfl

/-! ## `State.fillFb` -/

@[simp] theorem State.fillFb_cfg (v : Byte) : (s.fillFb v).cfg = s.cfg := rfl
@[simp] theorem State.fillFb_life (v : Byte) : (s.fillFb v).life = s.life := rfl
@[simp] theorem State.fillFb_lockHeld (v : Byte) : (s.fillFb v).lockHeld = s.lockHeld := rfl
@[simp] theorem State.fillFb_rstDriven (v : Byte) : (s.fillFb v).rstDriven = s.rstDriven := rfl
@[simp] theorem State.fillFb_rstLevel (v : Byte) : (s.fillFb v).rstLevel = s.rstLevel := rfl
@[simp] theorem State.fillFb_fb (v : Byte) : (s.fillFb v).fb = Memory.filled s.cfg.fbSize v := rfl
@[simp] theorem State.fillFb_busy (v : Byte) : (s.fillFb v).busy = s.busy := rfl
@[simp] theorem State.fillFb_req (v : Byte) : (s.fillFb v).req = s.req := rfl
@[simp] theorem State.fillFb_resp (v : Byte) : (s.fillFb v).resp = s.resp := rfl
@[simp] theorem State.fillFb_seq (v : Byte) : (s.fillFb v).seq = s.seq := rfl
@[simp] theorem State.fillFb_trace (v : Byte) : (s.fillFb v).trace = s.trace := rfl
@[simp] theorem State.fillFb_responses (v : Byte) : (s.fillFb v).responses = s.responses := rfl
@[simp] theorem State.fillFb_host (v : Byte) : (s.fillFb v).host = s.host := rfl
@[simp] theorem State.fillFb_hostValue (v : Byte) : (s.fillFb v).hostValue = s.hostValue := rfl
@[simp] theorem State.fillFb_env (v : Byte) : (s.fillFb v).env = s.env := rfl

/-! ## `State.lockDrawn` -/

@[simp] theorem State.lockDrawn_cfg : (s.lockDrawn).cfg = s.cfg := rfl
@[simp] theorem State.lockDrawn_life : (s.lockDrawn).life = s.life := rfl
@[simp] theorem State.lockDrawn_lockHeld : (s.lockDrawn).lockHeld = s.lockHeld := rfl
@[simp] theorem State.lockDrawn_rstDriven : (s.lockDrawn).rstDriven = s.rstDriven := rfl
@[simp] theorem State.lockDrawn_rstLevel : (s.lockDrawn).rstLevel = s.rstLevel := rfl
@[simp] theorem State.lockDrawn_fb : (s.lockDrawn).fb = s.fb := rfl
@[simp] theorem State.lockDrawn_busy : (s.lockDrawn).busy = s.busy := rfl
@[simp] theorem State.lockDrawn_req : (s.lockDrawn).req = s.req := rfl
@[simp] theorem State.lockDrawn_resp : (s.lockDrawn).resp = s.resp := rfl
@[simp] theorem State.lockDrawn_seq : (s.lockDrawn).seq = s.seq := rfl
@[simp] theorem State.lockDrawn_trace : (s.lockDrawn).trace = s.trace := rfl
@[simp] theorem State.lockDrawn_responses : (s.lockDrawn).responses = s.responses := rfl
@[simp] theorem State.lockDrawn_host : (s.lockDrawn).host = s.host := rfl
@[simp] theorem State.lockDrawn_hostValue : (s.lockDrawn).hostValue = s.hostValue := rfl
@[simp] theorem State.lockDrawn_env : (s.lockDrawn).env = { s.env with lockAnswers := s.env.lockAnswers.tail, lockDraws := s.env.lockDraws + 1 } := rfl

/-! ## `State.busDrawn` -/

@[simp] theorem State.busDrawn_cfg : (s.busDrawn).cfg = s.cfg := rfl
@[simp] theorem State.busDrawn_life : (s.busDrawn).life = s.life := rfl
@[simp] theorem State.busDrawn_lockHeld : (s.busDrawn).lockHeld = s.lockHeld := rfl
@[simp] theorem State.busDrawn_rstDriven : (s.busDrawn).rstDriven = s.rstDriven := rfl
@[simp] theorem State.busDrawn_rstLevel : (s.busDrawn).rstLevel = s.rstLevel := rfl
@[simp] theorem State.busDrawn_fb : (s.busDrawn).fb = s.fb := rfl
@[simp] theorem State.busDrawn_busy : (s.busDrawn).busy = s.busy := rfl
@[simp] theorem State.busDrawn_req : (s.busDrawn).req = s.req := rfl
@[simp] theorem State.busDrawn_resp : (s.busDrawn).resp = s.resp := rfl
@[simp] theorem State.busDrawn_seq : (s.busDrawn).seq = s.seq := rfl
@[simp] theorem State.busDrawn_trace : (s.busDrawn).trace = s.trace := rfl
@[simp] theorem State.busDrawn_responses : (s.busDrawn).responses = s.responses := rfl
@[simp] theorem State.busDrawn_host : (s.busDrawn).host = s.host := rfl
@[simp] theorem State.busDrawn_hostValue : (s.busDrawn).hostValue = s.hostValue := rfl
@[simp] theorem State.busDrawn_env : (s.busDrawn).env = { s.env with busAnswers := s.env.busAnswers.tail, busDraws := s.env.busDraws + 1 } := rfl

/-! ## `State.clockDrawn` -/

@[simp] theorem State.clockDrawn_cfg : (s.clockDrawn).cfg = s.cfg := rfl
@[simp] theorem State.clockDrawn_life : (s.clockDrawn).life = s.life := rfl
@[simp] theorem State.clockDrawn_lockHeld : (s.clockDrawn).lockHeld = s.lockHeld := rfl
@[simp] theorem State.clockDrawn_rstDriven : (s.clockDrawn).rstDriven = s.rstDriven := rfl
@[simp] theorem State.clockDrawn_rstLevel : (s.clockDrawn).rstLevel = s.rstLevel := rfl
@[simp] theorem State.clockDrawn_fb : (s.clockDrawn).fb = s.fb := rfl
@[simp] theorem State.clockDrawn_busy : (s.clockDrawn).busy = s.busy := rfl
@[simp] theorem State.clockDrawn_req : (s.clockDrawn).req = s.req := rfl
@[simp] theorem State.clockDrawn_resp : (s.clockDrawn).resp = s.resp := rfl
@[simp] theorem State.clockDrawn_seq : (s.clockDrawn).seq = s.seq := rfl
@[simp] theorem State.clockDrawn_trace : (s.clockDrawn).trace = s.trace := rfl
@[simp] theorem State.clockDrawn_responses : (s.clockDrawn).responses = s.responses := rfl
@[simp] theorem State.clockDrawn_host : (s.clockDrawn).host = s.host := rfl
@[simp] theorem State.clockDrawn_hostValue : (s.clockDrawn).hostValue = s.hostValue := rfl
@[simp] theorem State.clockDrawn_env : (s.clockDrawn).env = { s.env with clockAnswers := s.env.clockAnswers.tail, clockDraws := s.env.clockDraws + 1 } := rfl

/-! ## `State.raiseBusFail` -/

@[simp] theorem State.raiseBusFail_cfg : (s.raiseBusFail).cfg = s.cfg := rfl
@[simp] theorem State.raiseBusFail_life : (s.raiseBusFail).life = s.life := rfl
@[simp] theorem State.raiseBusFail_lockHeld : (s.raiseBusFail).lockHeld = s.lockHeld := rfl
@[simp] theorem State.raiseBusFail_rstDriven : (s.raiseBusFail).rstDriven = s.rstDriven := rfl
@[simp] theorem State.raiseBusFail_rstLevel : (s.raiseBusFail).rstLevel = s.rstLevel := rfl
@[simp] theorem State.raiseBusFail_fb : (s.raiseBusFail).fb = s.fb := rfl
@[simp] theorem State.raiseBusFail_busy : (s.raiseBusFail).busy = s.busy := rfl
@[simp] theorem State.raiseBusFail_req : (s.raiseBusFail).req = s.req := rfl
@[simp] theorem State.raiseBusFail_resp : (s.raiseBusFail).resp = s.resp := rfl
@[simp] theorem State.raiseBusFail_seq : (s.raiseBusFail).seq = [.op .lockRelease, .catchFail] := rfl
@[simp] theorem State.raiseBusFail_trace : (s.raiseBusFail).trace = s.trace := rfl
@[simp] theorem State.raiseBusFail_responses : (s.raiseBusFail).responses = s.responses := rfl
@[simp] theorem State.raiseBusFail_host : (s.raiseBusFail).host = s.host := rfl
@[simp] theorem State.raiseBusFail_hostValue : (s.raiseBusFail).hostValue = s.hostValue := rfl
@[simp] theorem State.raiseBusFail_env : (s.raiseBusFail).env = s.env := rfl

/-! ## `State.emitWords` -/

@[simp] theorem State.emitWords_cfg (ws : List Word) : (s.emitWords ws).cfg = s.cfg := rfl
@[simp] theorem State.emitWords_life (ws : List Word) : (s.emitWords ws).life = s.life := rfl
@[simp] theorem State.emitWords_lockHeld (ws : List Word) : (s.emitWords ws).lockHeld = s.lockHeld := rfl
@[simp] theorem State.emitWords_rstDriven (ws : List Word) : (s.emitWords ws).rstDriven = s.rstDriven := rfl
@[simp] theorem State.emitWords_rstLevel (ws : List Word) : (s.emitWords ws).rstLevel = s.rstLevel := rfl
@[simp] theorem State.emitWords_fb (ws : List Word) : (s.emitWords ws).fb = s.fb := rfl
@[simp] theorem State.emitWords_busy (ws : List Word) : (s.emitWords ws).busy = s.busy := rfl
@[simp] theorem State.emitWords_req (ws : List Word) : (s.emitWords ws).req = s.req := rfl
@[simp] theorem State.emitWords_resp (ws : List Word) : (s.emitWords ws).resp = s.resp := rfl
@[simp] theorem State.emitWords_seq (ws : List Word) : (s.emitWords ws).seq = s.seq := rfl
@[simp] theorem State.emitWords_trace (ws : List Word) : (s.emitWords ws).trace = s.trace := rfl
@[simp] theorem State.emitWords_responses (ws : List Word) : (s.emitWords ws).responses = s.responses := rfl
@[simp] theorem State.emitWords_host (ws : List Word) : (s.emitWords ws).host = ws.map .word ++ s.host := rfl
@[simp] theorem State.emitWords_hostValue (ws : List Word) : (s.emitWords ws).hostValue = s.hostValue := rfl
@[simp] theorem State.emitWords_env (ws : List Word) : (s.emitWords ws).env = s.env := rfl

end Sys2Proof.Machine
end

