-- ==== Sys2Proof/Laws/Encoding.lean ====
section
/-! SUPPORT. The bits and the fields of the encoder's words, and the bytes of the controller commands. -/

namespace Sys2Proof

/-! ## Bits of the operation words (R83 to R86) -/

theorem bit_wordZ (n : BitVec 4) (i : Nat) : (wordZ n).getLsbD i = if i < 28 then false else n.getLsbD (i - 28) := by
  show BitVec.getLsbD (n ++ 0#28) i = _
  simp only [BitVec.getLsbD_append]
  split_ifs <;> simp_all

theorem bit_wordP (x y : BitVec 12) (v : Bool) (i : Nat) :
    (wordP x y v).getLsbD i =
      if i < 12 then x.getLsbD i else if i < 24 then y.getLsbD (i - 12) else if i < 27 then false
      else if i = 27 then v else (0x2#4).getLsbD (i - 28) := by
  show BitVec.getLsbD (0x2#4 ++ BitVec.ofBool v ++ 0#3 ++ y ++ x) i = _
  simp only [BitVec.getLsbD_append]
  split_ifs <;> first | rfl | omega | simp_all

theorem bit_wordF (v : Bool) (i : Nat) :
    (wordF v).getLsbD i = if i < 27 then false else if i = 27 then v else (0x3#4).getLsbD (i - 28) := by
  show BitVec.getLsbD (0x3#4 ++ BitVec.ofBool v ++ 0#27) i = _
  simp only [BitVec.getLsbD_append]
  split_ifs <;> first | rfl | omega | simp_all

theorem bit_wordI (n : BitVec 16) (i : Nat) :
    (wordI n).getLsbD i = if i < 16 then n.getLsbD i else if i < 28 then false else (0x5#4).getLsbD (i - 28) := by
  show BitVec.getLsbD (0x5#4 ++ 0#12 ++ n) i = _
  simp only [BitVec.getLsbD_append]
  split_ifs <;> first | rfl | omega | simp_all

/-! ## Fields of the operation words (R87) -/

/-- The fields of a SETPIX word are its operands. -/
theorem fields_wordP (x y : BitVec 12) (v : Bool) :
    opcField (wordP x y v) = 0x2 ∧ formatP (wordP x y v) = true ∧ xField (wordP x y v) = x ∧
    yField (wordP x y v) = y ∧ vField (wordP x y v) = v := by
  refine ⟨?_, ?_, ?_, ?_, ?_⟩
  · apply BitVec.eq_of_getLsbD_eq
    intro i hi
    simp only [opcField, BitVec.getLsbD_extractLsb', bit_wordP]
    interval_cases i <;> simp
  · simp only [formatP, beq_iff_eq]
    apply BitVec.eq_of_getLsbD_eq
    intro i hi
    simp only [BitVec.getLsbD_extractLsb', bit_wordP]
    interval_cases i <;> simp
  · apply BitVec.eq_of_getLsbD_eq
    intro i hi
    simp only [xField, BitVec.getLsbD_extractLsb', bit_wordP, hi]
    simp [hi]
  · apply BitVec.eq_of_getLsbD_eq
    intro i hi
    simp only [yField, BitVec.getLsbD_extractLsb', bit_wordP, hi]
    rw [if_neg (by omega), if_pos (by omega)]
    simp
  · simp only [vField, bit_wordP]
    simp

/-- The fields of an RDFB word are its operand. -/
theorem fields_wordI (n : BitVec 16) :
    opcField (wordI n) = 0x5 ∧ formatI (wordI n) = true ∧ indexField (wordI n) = n := by
  refine ⟨?_, ?_, ?_⟩
  · apply BitVec.eq_of_getLsbD_eq
    intro i hi
    simp only [opcField, BitVec.getLsbD_extractLsb', bit_wordI]
    interval_cases i <;> simp
  · simp only [formatI, beq_iff_eq]
    apply BitVec.eq_of_getLsbD_eq
    intro i hi
    simp only [BitVec.getLsbD_extractLsb', bit_wordI]
    interval_cases i <;> simp
  · apply BitVec.eq_of_getLsbD_eq
    intro i hi
    simp only [indexField, BitVec.getLsbD_extractLsb', bit_wordI, hi]
    simp [hi]

theorem decodeWord_wordP (x y : BitVec 12) (v : Bool) : decodeWord (wordP x y v) = .setpix x y v := by
  obtain ⟨h1, h2, h3, h4, h5⟩ := fields_wordP x y v
  simp [decodeWord, h1, h2, h3, h4, h5]

/-- The bits of a word with a known operation code. -/
theorem bit_of_opcField {w : Word} {n : BitVec 4} (h : opcField w = n) (i : Nat) (hi : i < 4) :
    w.getLsbD (28 + i) = n.getLsbD i := by
  subst h
  simp [opcField, hi]

/-- The bits of a field that is zero. -/
theorem bit_of_zeroField {w : Word} {start len : Nat} (h : w.extractLsb' start len = 0) (i : Nat) (hi : i < len) :
    w.getLsbD (start + i) = false := by
  have := congrArg (fun x => x.getLsbD i) h
  simpa [hi] using this

/-! ## Controller commands (R94, R95) -/

/-- The encoder's bytes are the rule's arithmetic. -/
theorem Command.bytes_eq_sentBytes (k : Command) : k.bytes = Machine.sentBytes k := by
  cases k <;> simp only [Command.bytes, Machine.sentBytes]
  case segRemap h => revert h; decide
  case comScan h => revert h; decide
  case setPage p => congr 1; revert p; decide
  case setColLo p => congr 1
  case setColHi p => congr 1

/-- A command at the head of a stream is read as itself (R96). -/
theorem decodeStream_bytes (k : Command) (rest : List Byte) :
    decodeStream (k.bytes ++ rest) = (decodeStream rest).map (k :: ·) := by
  have alone : ∀ b, commandOfOpcode b = some k → decodeStream (b :: rest) = (decodeStream rest).map (k :: ·) := by
    intro b hb
    cases rest with
    | nil => simp [decodeStream, hb, Except.map]
    | cons a r => simp [decodeStream, hb]
  have withArg : ∀ b a, commandOfOpcode b = none → commandOfOpcodeArg b a = some k →
      decodeStream (b :: a :: rest) = (decodeStream rest).map (k :: ·) := by
    intro b a hb ha
    simp [decodeStream, hb, ha]
  cases k
  case setClkdiv a => exact withArg _ a rfl rfl
  case setMux a => exact withArg _ a rfl rfl
  case setOffset a => exact withArg _ a rfl rfl
  case chargePump a => exact withArg _ a rfl rfl
  case comPins a => exact withArg _ a rfl rfl
  case contrast a => exact withArg _ a rfl rfl
  case precharge a => exact withArg _ a rfl rfl
  case vcomh a => exact withArg _ a rfl rfl
  case segRemap h => exact alone _ (by clear alone withArg; revert h; decide)
  case comScan h => exact alone _ (by clear alone withArg; revert h; decide)
  case setPage p => exact alone _ (by clear alone withArg; revert p; decide)
  case setColLo p => exact alone _ (by clear alone withArg; revert p; decide)
  case setColHi p => exact alone _ (by clear alone withArg; revert p; decide)
  all_goals exact alone _ rfl

end Sys2Proof
end

