-- ==== Sys2Proof/Laws/Memory.lean ====
section
/-! SUPPORT. The framebuffer memory: reads after writes, and that every operation keeps the canonical form and the
fullness. -/

namespace Sys2Proof.Machine

/-! ## The listed bytes -/

@[simp] theorem Memory.find_put_self (m : Memory) (i : Nat) (v : Byte) : Memory.find (m.put i v) i = some v := by
  induction m with
  | nil => simp [Memory.put, Memory.find]
  | cons p rest ih =>
    obtain ⟨a, b⟩ := p
    simp only [Memory.put]
    split_ifs with h1 h2
    · simp [Memory.find]
    · simp [Memory.find]
    · simp only [Memory.find, ih]
      rw [if_neg (fun h => h2 h.symm)]

theorem Memory.find_put_ne (m : Memory) {i j : Nat} (v : Byte) (h : j ≠ i) :
    Memory.find (m.put i v) j = m.find j := by
  induction m with
  | nil => simp [Memory.put, Memory.find, Ne.symm h]
  | cons p rest ih =>
    obtain ⟨a, b⟩ := p
    simp only [Memory.put]
    split_ifs with h1 h2
    · simp [Memory.find, Ne.symm h]
    · subst h2
      simp [Memory.find, Ne.symm h]
    · simp only [Memory.find, ih]

/-! ## The canonical form -/

/-- A memory with a first cell is well formed when the cell's index is below the size and below every later index. -/
theorem Memory.wf_cons {size : Nat} {a : Nat} {b : Byte} {m : Memory} :
    Memory.wf size ((a, b) :: m) = true ↔
      a < size ∧ Memory.wf size m = true ∧ ∀ p ∈ m, a < p.1 := by
  induction m generalizing a b with
  | nil => simp [Memory.wf]
  | cons p rest ih =>
    obtain ⟨a', b'⟩ := p
    constructor
    · intro h
      simp only [Memory.wf, Bool.and_eq_true, decide_eq_true_eq] at h
      obtain ⟨h1, h2⟩ := h
      obtain ⟨h3, h4, h5⟩ := ih.1 h2
      refine ⟨by omega, h2, ?_⟩
      intro q hq
      rcases List.mem_cons.1 hq with rfl | hq
      · exact h1
      · exact lt_trans h1 (h5 q hq)
    · rintro ⟨_, h2, h3⟩
      simp only [Memory.wf, Bool.and_eq_true, decide_eq_true_eq]
      exact ⟨h3 (a', b') (List.mem_cons_self ..), h2⟩

/-- Every cell of a well-formed memory lies below the size. -/
theorem Memory.wf_lt {size : Nat} {m : Memory} (h : Memory.wf size m = true) : ∀ p ∈ m, p.1 < size := by
  induction m with
  | nil => simp
  | cons p rest ih =>
    obtain ⟨a, b⟩ := p
    obtain ⟨h1, h2, -⟩ := Memory.wf_cons.1 h
    intro q hq
    rcases List.mem_cons.1 hq with rfl | hq
    · exact h1
    · exact ih h2 q hq

theorem Memory.mem_put {m : Memory} {i : Nat} {v : Byte} {p : Host.Cell} (h : p ∈ m.put i v) :
    p = (i, v) ∨ p ∈ m := by
  induction m with
  | nil => simpa [Memory.put] using h
  | cons q rest ih =>
    obtain ⟨a, b⟩ := q
    simp only [Memory.put] at h
    split_ifs at h with h1 h2
    · simpa using h
    · rcases List.mem_cons.1 h with h | h
      · exact .inl h
      · exact .inr (List.mem_cons_of_mem _ h)
    · rcases List.mem_cons.1 h with h | h
      · exact .inr (h ▸ List.mem_cons_self ..)
      · exact (ih h).imp id (List.mem_cons_of_mem _)

/-- A write inside the framebuffer keeps the canonical form. -/
theorem Memory.wf_put {size : Nat} {m : Memory} {i : Nat} {v : Byte} (h : Memory.wf size m = true) (hi : i < size) :
    Memory.wf size (m.put i v) = true := by
  induction m with
  | nil => simpa [Memory.put, Memory.wf] using hi
  | cons q rest ih =>
    obtain ⟨a, b⟩ := q
    obtain ⟨h1, h2, h3⟩ := Memory.wf_cons.1 h
    simp only [Memory.put]
    split_ifs with h4 h5
    · refine Memory.wf_cons.2 ⟨hi, h, ?_⟩
      intro p hp
      rcases List.mem_cons.1 hp with rfl | hp
      · exact h4
      · exact lt_trans h4 (h3 p hp)
    · subst h5
      exact Memory.wf_cons.2 ⟨h1, h2, h3⟩
    · refine Memory.wf_cons.2 ⟨h1, ih h2, ?_⟩
      intro p hp
      rcases Memory.mem_put hp with rfl | hp
      · simp only; omega
      · exact h3 p hp

theorem Memory.wf_range' (size v : Nat) (b : Byte) (n : Nat) (h : v + n ≤ size) :
    Memory.wf size ((List.range' v n).map fun i => (i, b)) = true := by
  induction n generalizing v with
  | zero => rfl
  | succ n ih =>
    rw [List.range'_succ, List.map_cons]
    refine Memory.wf_cons.2 ⟨by omega, ih (v + 1) (by omega), ?_⟩
    intro p hp
    obtain ⟨i, hi, rfl⟩ := List.mem_map.1 hp
    have := List.mem_range'_1.1 hi
    simp only; omega

/-- A fill leaves the canonical form. -/
theorem Memory.wf_filled (size : Nat) (v : Byte) : Memory.wf size (Memory.filled size v) = true := by
  rw [Memory.filled, List.range_eq_range']
  exact Memory.wf_range' size 0 v size (by omega)

/-- The form is canonical: two well-formed memories that list the same bytes are equal. -/
theorem Memory.wf_ext {size : Nat} {m m' : Memory} (h : Memory.wf size m = true) (h' : Memory.wf size m' = true)
    (hf : ∀ i, m.find i = m'.find i) : m = m' := by
  induction m generalizing m' with
  | nil =>
    cases m' with
    | nil => rfl
    | cons p rest => simpa [Memory.find] using hf p.1
  | cons p rest ih =>
    obtain ⟨a, b⟩ := p
    cases m' with
    | nil => simpa [Memory.find] using hf a
    | cons p' rest' =>
      obtain ⟨a', b'⟩ := p'
      obtain ⟨-, h2, h3⟩ := Memory.wf_cons.1 h
      obtain ⟨-, h2', h3'⟩ := Memory.wf_cons.1 h'
      have below : ∀ {l : Memory} {k : Nat}, (∀ p ∈ l, k < p.1) → ∀ j, j ≤ k → l.find j = none := by
        intro l k hl j hj
        induction l with
        | nil => rfl
        | cons q l ihl =>
          have hq := hl q (List.mem_cons_self ..)
          rw [Memory.find, if_neg (by omega)]
          exact ihl fun p hp => hl p (List.mem_cons_of_mem _ hp)
      have haa : a = a' := by
        rcases lt_trichotomy a a' with hlt | heq | hgt
        · have := hf a
          rw [Memory.find, if_pos rfl, Memory.find, if_neg (by omega), below h3' a (by omega)] at this
          cases this
        · exact heq
        · have := hf a'
          rw [Memory.find, if_neg (by omega), Memory.find, if_pos rfl, below h3 a' (by omega)] at this
          cases this
      subst haa
      have hbb : b = b' := by simpa [Memory.find] using hf a
      subst hbb
      congr 1
      refine ih h2 h2' fun i => ?_
      by_cases hi : i = a
      · rw [hi, below h3 a le_rfl, below h3' a le_rfl]
      · have := hf i
        rwa [Memory.find, if_neg (fun h => hi h.symm), Memory.find, if_neg (fun h => hi h.symm)] at this

/-! ## Fills -/

theorem Memory.find_map_range' (v n i : Nat) (b : Byte) :
    Memory.find ((List.range' v n).map fun k => (k, b)) i = if v ≤ i ∧ i < v + n then some b else none := by
  induction n generalizing v with
  | zero => simp [Memory.find]
  | succ n ih =>
    rw [List.range'_succ, List.map_cons, Memory.find, ih]
    split_ifs <;> first | rfl | omega

/-- Every byte of a filled framebuffer holds the fill value, and nothing is listed outside it. -/
theorem Memory.find_filled (size i : Nat) (v : Byte) :
    Memory.find (Memory.filled size v) i = if i < size then some v else none := by
  rw [Memory.filled, List.range_eq_range', Memory.find_map_range']
  simp

theorem Memory.read_filled {size i : Nat} (v : Byte) (h : i < size) :
    Memory.read size (Memory.filled size v) i = .ok v := by
  simp [Memory.read, Memory.find_filled, h]

/-! ## Reads -/

theorem Memory.read_of_find {size : Nat} {m : Memory} {i : Nat} {b : Byte} (hi : i < size) (h : m.find i = some b) :
    m.read size i = .ok b := by
  simp [Memory.read, hi, h]

theorem Memory.read_ok {size : Nat} {m : Memory} {i : Nat} {b : Byte} (h : m.read size i = .ok b) :
    i < size ∧ m.find i = some b := by
  unfold Memory.read at h
  split_ifs at h with hi
  cases hf : m.find i with
  | none => simp [hf] at h
  | some c =>
    rw [hf] at h
    exact ⟨hi, by simpa using h⟩

@[simp] theorem Memory.read_put_self {size : Nat} (m : Memory) {i : Nat} (v : Byte) (h : i < size) :
    Memory.read size (m.put i v) i = .ok v := by
  simp [Memory.read, h]

theorem Memory.read_put_ne {size : Nat} (m : Memory) {i j : Nat} (v : Byte) (h : j ≠ i) :
    Memory.read size (m.put i v) j = m.read size j := by
  simp [Memory.read, Memory.find_put_ne m v h]

/-! ## Fullness -/

theorem Memory.full_iff {size : Nat} {m : Memory} :
    Memory.full size m = true ↔ ∀ i < size, ∃ b, m.find i = some b := by
  simp [Memory.full, Option.isSome_iff_exists]

theorem Memory.full_filled (size : Nat) (v : Byte) : Memory.full size (Memory.filled size v) = true :=
  Memory.full_iff.2 fun i hi => ⟨v, by simp [Memory.find_filled, hi]⟩

theorem Memory.full_put {size : Nat} {m : Memory} {i : Nat} {v : Byte} (h : Memory.full size m = true) :
    Memory.full size (m.put i v) = true := by
  rw [Memory.full_iff] at h ⊢
  intro j hj
  by_cases hji : j = i
  · exact ⟨v, by rw [hji]; simp⟩
  · rw [Memory.find_put_ne m v hji]
    exact h j hj

theorem Memory.read_of_full {size : Nat} {m : Memory} {i : Nat} (h : Memory.full size m = true) (hi : i < size) :
    ∃ b, m.read size i = .ok b := by
  obtain ⟨b, hb⟩ := Memory.full_iff.1 h i hi
  exact ⟨b, Memory.read_of_find hi hb⟩

/-! ## The dump that a flush reads -/

theorem collect_map_ok {α : Type} (f : α → Except Fault Byte) (g : α → Byte) (l : List α)
    (h : ∀ a ∈ l, f a = .ok (g a)) : collect (l.map f) = .ok (l.map g) := by
  induction l with
  | nil => rfl
  | cons a l ih =>
    rw [List.map_cons, h a (List.mem_cons_self ..), collect, ih fun b hb => h b (List.mem_cons_of_mem _ hb)]
    rfl

/-- A framebuffer that has been written everywhere is dumped whole. -/
theorem Memory.dump_of_full {size : Nat} {m : Memory} (h : Memory.full size m = true) :
    m.dump size = .ok ((List.range size).map fun i => (m.find i).getD 0) := by
  refine collect_map_ok _ _ _ fun i hi => ?_
  obtain ⟨b, hb⟩ := Memory.full_iff.1 h i (List.mem_range.1 hi)
  rw [Memory.read_of_find (List.mem_range.1 hi) hb, hb]
  rfl

/-- A dump has one byte for each index. -/
theorem collect_length {l : List (Except Fault Byte)} {bs : List Byte} (h : collect l = .ok bs) :
    bs.length = l.length := by
  induction l generalizing bs with
  | nil => simp only [collect, Except.ok.injEq] at h; simp [← h]
  | cons a l ih =>
    cases a with
    | error f => simp [collect] at h
    | ok b =>
      simp only [collect] at h
      cases hc : collect l with
      | error f => simp [hc, Except.map] at h
      | ok bs' =>
        simp only [hc, Except.map, Except.ok.injEq] at h
        simp [← h, ih hc]

theorem Memory.dump_length {size : Nat} {m : Memory} {bs : List Byte} (h : m.dump size = .ok bs) :
    bs.length = size := by
  simpa using collect_length h

/-- A dump of a filled framebuffer repeats the fill value. -/
theorem Memory.dump_filled (size : Nat) (v : Byte) :
    Memory.dump size (Memory.filled size v) = .ok (List.replicate size v) := by
  rw [Memory.dump_of_full (Memory.full_filled size v)]
  congr 1
  refine List.eq_replicate_iff.2 ⟨by simp, ?_⟩
  intro b hb
  obtain ⟨i, hi, rfl⟩ := List.mem_map.1 hb
  simp [Memory.find_filled, List.mem_range.1 hi]

end Sys2Proof.Machine
end

