-- ==== Sys2Proof/Laws/Ops.lean ====
section
/-! SUPPORT. One lemma for each shared operation that says everything it can do; later proofs cite these instead of
unfolding the operation. -/

namespace Sys2Proof.Machine

/-! ## Bus writes -/

/-- Both outcomes of a bus write (R122, R123): the event in any case, and the raising of BusFail when it failed. -/
theorem transact_cases (control : Byte) (payload : List Byte) (s : State) :
    (s.busAnswer = .ack ∧ transact control payload s = s.busDrawn.emit (.wr s.cfg.addr (control :: payload) .ack)) ∨
    (s.busAnswer = .fail ∧
      transact control payload s = (s.busDrawn.emit (.wr s.cfg.addr (control :: payload) .fail)).raiseBusFail) := by
  unfold transact
  cases h : s.busAnswer
  · exact .inl ⟨rfl, rfl⟩
  · exact .inr ⟨rfl, rfl⟩

theorem transact_ack {control : Byte} {payload : List Byte} {s : State} (h : s.busAnswer = .ack) :
    transact control payload s = s.busDrawn.emit (.wr s.cfg.addr (control :: payload) .ack) := by
  simp [transact, h]

theorem transact_fail {control : Byte} {payload : List Byte} {s : State} (h : s.busAnswer = .fail) :
    transact control payload s = (s.busDrawn.emit (.wr s.cfg.addr (control :: payload) .fail)).raiseBusFail := by
  simp [transact, h]

/-- An answer the bus has decided is the answer it gives. -/
theorem busAnswer_of_cons {s : State} {r : BusResult} {rs : List BusResult} (h : s.env.busAnswers = r :: rs) :
    s.busAnswer = r := by
  simp [State.busAnswer, h]

/-- An answer the arbiter has decided is the answer it gives. -/
theorem lockAnswer_of_cons {s : State} {g : Bool} {gs : List Bool} (h : s.env.lockAnswers = g :: gs) :
    s.lockAnswer = g := by
  simp [State.lockAnswer, h]

/-- What one bus write leaves alone. -/
theorem transact_frame (control : Byte) (payload : List Byte) (s : State) :
    (transact control payload s).cfg = s.cfg ∧ (transact control payload s).life = s.life ∧
    (transact control payload s).lockHeld = s.lockHeld ∧ (transact control payload s).rstDriven = s.rstDriven ∧
    (transact control payload s).rstLevel = s.rstLevel ∧ (transact control payload s).fb = s.fb ∧
    (transact control payload s).busy = s.busy ∧ (transact control payload s).req = s.req ∧
    (transact control payload s).resp = s.resp ∧ (transact control payload s).responses = s.responses ∧
    (transact control payload s).host = s.host ∧ (transact control payload s).hostValue = s.hostValue := by
  rcases transact_cases control payload s with ⟨-, h⟩ | ⟨-, h⟩ <;> rw [h] <;> simp

/-- Everything a transaction's micro-operation answers. -/
theorem sendTransaction_next {control : Byte} {payload : List Byte} {s t : State}
    (h : sendTransaction control payload s = .next t) : s.lockHeld = true ∧ t = transact control payload s := by
  unfold sendTransaction at h
  split_ifs at h with hl
  exact ⟨hl, by injection h with h; exact h.symm⟩

theorem sendTransaction_held {control : Byte} {payload : List Byte} {s : State} (h : s.lockHeld = true) :
    sendTransaction control payload s = .next (transact control payload s) := by
  simp [sendTransaction, h]

/-- The only shapes EMIT_CMD can have: one transaction, or the opcode's transaction with the argument's still to come. -/
theorem emitCommand_next {c : List Byte} {s t : State} (h : emitCommand c s = .next t) :
    s.lockHeld = true ∧
    ((commandBytesOk c = true ∧ t = transact 0x00 c s) ∨
     (∃ b a, c = [b, a] ∧ s.cfg.framing = .perByte ∧ t = transact 0x00 [b] (s.push [.op (.txCmd [a])]))) := by
  match c with
  | [] => simp [emitCommand] at h
  | [b] =>
    obtain ⟨h1, h2⟩ := sendTransaction_next h
    exact ⟨h1, .inl ⟨rfl, h2⟩⟩
  | [b, a] =>
    simp only [emitCommand] at h
    cases hf : s.cfg.framing with
    | perCommand =>
      rw [hf] at h
      obtain ⟨h1, h2⟩ := sendTransaction_next h
      exact ⟨h1, .inl ⟨rfl, h2⟩⟩
    | perByte =>
      rw [hf] at h
      obtain ⟨h1, h2⟩ := sendTransaction_next h
      exact ⟨h1, .inr ⟨b, a, rfl, rfl, h2⟩⟩
  | _ :: _ :: _ :: _ => simp [emitCommand] at h

/-- A command of R94 has one or two bytes. -/
theorem Command.bytes_shape (k : Command) : (∃ b, k.bytes = [b]) ∨ (∃ b a, k.bytes = [b, a]) := by
  cases k <;> simp [Command.bytes]

/-- Every controller command's meaning is EMIT_CMD of its bytes. -/
theorem exec_command (k : Command) (s : State) : exec k.toInstr s = emitCommand k.bytes s := by
  cases k <;> rfl

/-! ## Memory operations on the state -/

/-- BITWRITE in one equation (R182). -/
theorem bitWrite_ok {index bit : Nat} {v : Bool} {s : State} {b : Byte} (h : s.readFb index = .ok b) :
    bitWrite index bit v s = .ok { s with fb := s.fb.put index (bitWriteByte b bit v) } := by
  have hi := (Memory.read_ok h).1
  simp [bitWrite, h, Memory.write, hi]

/-- All that BITWRITE can do when it succeeds. -/
theorem bitWrite_cases {index bit : Nat} {v : Bool} {s t : State} (h : bitWrite index bit v s = .ok t) :
    ∃ b, s.readFb index = .ok b ∧ t = { s with fb := s.fb.put index (bitWriteByte b bit v) } := by
  cases hr : s.readFb index with
  | error f => simp [bitWrite, hr] at h
  | ok b =>
    rw [bitWrite_ok hr] at h
    exact ⟨b, rfl, by injection h with h; exact h.symm⟩

/-! ## The end of an operation (R255, R150, R210) -/

theorem completeOp_frame (s : State) :
    s.completeOp.cfg = s.cfg ∧ s.completeOp.lockHeld = s.lockHeld ∧ s.completeOp.rstDriven = s.rstDriven ∧
    s.completeOp.rstLevel = s.rstLevel ∧ s.completeOp.fb = s.fb ∧ s.completeOp.busy = false ∧ s.completeOp.seq = [] ∧
    s.completeOp.req = s.req ∧ s.completeOp.trace = s.trace ∧ s.completeOp.host = s.host ∧
    s.completeOp.hostValue = s.hostValue ∧ s.completeOp.env = s.env ∧
    s.completeOp.resp = responseWord .ok 0 ∧ s.completeOp.responses = s.responses ++ [responseWord .ok 0] ∧
    s.completeOp.life = (if s.life = .initializing then .ready else s.life) := by
  unfold State.completeOp
  cases h : s.life <;> simp [h]

theorem catchBusFail_frame (s : State) :
    s.catchBusFail.cfg = s.cfg ∧ s.catchBusFail.lockHeld = s.lockHeld ∧ s.catchBusFail.rstDriven = s.rstDriven ∧
    s.catchBusFail.rstLevel = s.rstLevel ∧ s.catchBusFail.fb = s.fb ∧ s.catchBusFail.busy = false ∧
    s.catchBusFail.seq = [] ∧ s.catchBusFail.req = s.req ∧ s.catchBusFail.trace = s.trace ∧
    s.catchBusFail.host = s.host ∧ s.catchBusFail.hostValue = s.hostValue ∧ s.catchBusFail.env = s.env ∧
    s.catchBusFail.resp = responseWord .busFail 0 ∧
    s.catchBusFail.responses = s.responses ++ [responseWord .busFail 0] ∧
    s.catchBusFail.life = (if s.life = .initializing then .failed else s.life) := by
  unfold State.catchBusFail
  cases h : s.life <;> simp [h]

/-! ## Trace scans -/

theorem lockScan_append (h : Bool) (es fs : List Event) :
    lockScan h (es ++ fs) = (lockScan h es).bind fun h' => lockScan h' fs := by
  induction es generalizing h with
  | nil => rfl
  | cons e es ih => cases e <;> cases h <;> simp [lockScan, ih]

/-- One more event in the trace: the lock discipline of the rest is that of the event alone. -/
theorem lockScan_emit {s : State} {held : Bool} (h : lockScan false s.trace = some held) (e : Event) :
    lockScan false (s.emit e).trace = lockScan held [e] := by
  rw [State.emit_trace, lockScan_append, h]
  rfl

end Sys2Proof.Machine
end

