-- ==== Sys2Proof/Laws/Step.lean ====
section
/-! SUPPORT. What an instruction and a step can do, said once: `exec_effect` lists every way `exec` can answer a next
state, and `step_effect` every way a step can; proofs about all instructions or all steps go by cases on them. -/

namespace Sys2Proof.Machine

/-! ## Answers of the environment under state updates -/

@[simp] theorem State.push_busAnswer (s : State) (items : List SeqItem) : (s.push items).busAnswer = s.busAnswer := rfl
@[simp] theorem State.push_busDrawn_env (s : State) (items : List SeqItem) :
    (s.push items).busDrawn.env = s.busDrawn.env := rfl
@[simp] theorem State.emit_busAnswer (s : State) (e : Event) : (s.emit e).busAnswer = s.busAnswer := rfl

/-! ## One instruction -/

/-- The operations of the host port (R82): the only instructions that respond. -/
def hostOp : Instr → Bool
  | .init | .setpix _ _ _ | .fill _ | .showFrame | .rdfb _ | .rdstat | .illegal _ => true
  | _ => false

/-- Every way an instruction can lead from one state to the next. -/
inductive ExecEffect : Instr → State → State → Prop
  /-- a response and nothing else -/
  | respond {i : Instr} {s : State} (code : RespCode) (data : Byte) (hi : hostOp i = true)
      (h : code ≠ .ok → data = 0) :
      ExecEffect i s (s.respond code data)
  /-- a framebuffer byte written (R183), then the response -/
  | setpix {x y : BitVec 12} {v : Bool} {s : State} (index : Nat) (b : Byte) (hr : s.life = .ready)
      (hi : index < s.cfg.fbSize) :
      ExecEffect (.setpix x y v) s ({ s with fb := s.fb.put index b }.respond .ok 0)
  /-- every framebuffer byte written (R186), then the response -/
  | fill {v : Bool} {s : State} (hr : s.life = .ready) :
      ExecEffect (.fill v) s ((s.fillFb (if v then 0xFF else 0x00)).respond .ok 0)
  | init {s : State} (h : s.life = .uninit) :
      ExecEffect .init s { s with life := .initializing, seq := initProgram s.cfg }
  | shows {s : State} (h : s.life = .ready) : ExecEffect .showFrame s { s with seq := showProgram }
  | granted {s : State} (h : s.lockHeld = false) :
      ExecEffect .lockAcquire s ({ s.lockDrawn with lockHeld := true }.emit .acq)
  | denied {s : State} (h : s.lockHeld = false) : ExecEffect .lockAcquire s (s.lockDrawn.push [.op .lockAcquire])
  | released {s : State} (h : s.lockHeld = true) :
      ExecEffect .lockRelease s ({ s with lockHeld := false }.emit .rel)
  /-- one bus write, maybe with the argument byte's write still to come -/
  | write {i : Instr} {s : State} (control : Byte) (payload : List Byte) (later : List Byte)
      (hi : inGroup i = true) (h : s.lockHeld = true)
      (hf : writeFormed s.cfg.addr (.wr s.cfg.addr (control :: payload) .ack) = true) :
      ExecEffect i s (transact control payload (s.push (later.map fun a => .op (.txCmd [a]))))
  | wait {ms : Nat} {s : State} (h : 1 ≤ ms) : ExecEffect (.wait ms) s (s.emit (.wait ms))
  | rstDirOut {s : State} (h : s.cfg.hasReset = true) :
      ExecEffect .rstDirOut s ({ s with rstDriven := true }.emit .gdir)
  | rstSet {l : Bool} {s : State} (h : s.cfg.hasReset = true) :
      ExecEffect (.rstSet l) s ({ s with rstLevel := l }.emit (.gset l))
  | withLock {body : List MicroOp} {s : State} : ExecEffect (.withLock body) s (s.push (lockGroup body))
  /-- a host procedure: nothing of the block -/
  | pseudo {i : Instr} {s : State} (p : PseudoOp) (hp : i = p.toInstr) (host : List HostItem) (value : HostValue) (env : Env) :
      ExecEffect i s { s with host := host, hostValue := value, env := env }

theorem push_nil (s : State) : s.push [] = s := by simp [State.push]

theorem writeFormed_cmd (a : Addr7) (cmd : List Byte) (r : BusResult) (h : commandBytesOk cmd = true) :
    writeFormed a (.wr a (0x00 :: cmd) r) = true := by simp [writeFormed, h]

theorem writeFormed_data (a : Addr7) (chunk : List Byte) (r : BusResult) (h : chunkOk chunk = true) :
    writeFormed a (.wr a (0x40 :: chunk) r) = true := by simp [writeFormed, h]

/-- The result of a bus write does not matter to its form. -/
theorem writeFormed_result (a : Addr7) (w : List Byte) (r r' : BusResult)
    (h : writeFormed a (.wr a w r) = true) : writeFormed a (.wr a w r') = true := by
  unfold writeFormed at h ⊢
  split at h <;> simp_all

theorem effect_emitCommand {i : Instr} {c : List Byte} {s t : State} (hi : inGroup i = true)
    (h : emitCommand c s = .next t) : ExecEffect i s t := by
  obtain ⟨hl, ⟨hc, rfl⟩ | ⟨b, a, rfl, -, rfl⟩⟩ := emitCommand_next h
  · have := ExecEffect.write (i := i) 0x00 c [] hi hl (writeFormed_cmd _ _ _ hc)
    simpa [push_nil] using this
  · exact ExecEffect.write 0x00 [b] [a] hi hl (writeFormed_cmd _ _ _ rfl)

theorem effect_sendCommandBytes {i : Instr} {c : List Byte} {s t : State} (hi : inGroup i = true)
    (h : sendCommandBytes c s = .next t) : ExecEffect i s t := by
  unfold sendCommandBytes at h
  split_ifs at h with hc
  obtain ⟨hl, rfl⟩ := sendTransaction_next h
  have := ExecEffect.write (i := i) 0x00 c [] hi hl (writeFormed_cmd _ _ _ hc)
  simpa [push_nil] using this

theorem effect_sendChunk {i : Instr} {c : List Byte} {s t : State} (hi : inGroup i = true)
    (h : sendChunk c s = .next t) : ExecEffect i s t := by
  unfold sendChunk at h
  split_ifs at h with hc
  obtain ⟨hl, rfl⟩ := sendTransaction_next h
  have := ExecEffect.write (i := i) 0x40 c [] hi hl (writeFormed_data _ _ _ hc)
  simpa [push_nil] using this

theorem effect_setpix {x y : BitVec 12} {v : Bool} {s t : State} (h : execSetpix x y v s = .next t) :
    ExecEffect (.setpix x y v) s t := by
  unfold execSetpix at h
  cases hl : s.life with
  | ready =>
    simp only [hl] at h
    cases hm : mapXY s.cfg x.toInt y.toInt with
    | none =>
      simp only [hm] at h
      cases h
      exact .respond _ _ rfl (by simp)
    | some p =>
      obtain ⟨index, bit⟩ := p
      simp only [hm] at h
      cases hb : bitWrite index bit v s with
      | error f => simp [hb, Except.map, outcomeOf] at h
      | ok u =>
        obtain ⟨b, hr, rfl⟩ := bitWrite_cases hb
        simp only [hb, Except.map, outcomeOf] at h
        cases h
        exact .setpix _ _ hl (Memory.read_ok hr).1
  | uninit => simp only [hl] at h; cases h; exact .respond _ _ rfl (by simp)
  | initializing => simp only [hl] at h; cases h; exact .respond _ _ rfl (by simp)
  | failed => simp only [hl] at h; cases h; exact .respond _ _ rfl (by simp)

theorem effect_rdfb {index : BitVec 16} {s t : State} (h : execRdfb index s = .next t) :
    ExecEffect (.rdfb index) s t := by
  unfold execRdfb at h
  cases hl : s.life with
  | ready =>
    simp only [hl] at h
    split_ifs at h with hi
    · cases h; exact .respond .range 0 rfl (by simp)
    · cases hr : s.readFb index.toNat with
      | error f => simp [hr, Except.map, outcomeOf] at h
      | ok b =>
        simp only [hr, Except.map, outcomeOf] at h
        cases h
        exact .respond .ok b rfl (by simp)
  | uninit => simp only [hl] at h; cases h; exact .respond _ _ rfl (by simp)
  | initializing => simp only [hl] at h; cases h; exact .respond _ _ rfl (by simp)
  | failed => simp only [hl] at h; cases h; exact .respond _ _ rfl (by simp)

theorem effect_pseudo {p : PseudoOp} {s t : State} (h : exec p.toInstr s = .next t) : ExecEffect p.toInstr s t := by
  cases p with
  | drawGlyphR x y g => cases h; exact .pseudo (.drawGlyphR x y g) rfl _ _ _
  | drawGlyphC x y g => cases h; exact .pseudo (.drawGlyphC x y g) rfl _ _ _
  | drawText text x y font sp =>
    simp only [PseudoOp.toInstr, exec, execDrawText] at h
    split_ifs at h
    cases h
    exact .pseudo (.drawText text x y font sp) rfl _ _ _
  | lookup font ch =>
    simp only [PseudoOp.toInstr, exec, execLookup] at h
    split at h
    · cases h; exact .pseudo (.lookup font ch) rfl _ _ _
    · cases h
  | centerX w => cases h; exact .pseudo (.centerX w) rfl _ _ _
  | probeLock timeout =>
    simp only [PseudoOp.toInstr, exec, execProbeLock] at h
    split_ifs at h <;> cases h <;> exact .pseudo (.probeLock timeout) rfl _ _ _

theorem inGroup_command (k : Command) : inGroup k.toInstr = true := by cases k <;> rfl

theorem effect_command (k : Command) {s t : State} (h : exec k.toInstr s = .next t) : ExecEffect k.toInstr s t :=
  effect_emitCommand (inGroup_command k) (exec_command k s ▸ h)

/-- Every instruction's next state is one of the effects. -/
theorem exec_effect {i : Instr} {s t : State} (h : exec i s = .next t) : ExecEffect i s t := by
  cases i with
  | init =>
    simp only [exec, execInit] at h
    cases hl : s.life <;> simp only [hl] at h <;> cases h
    all_goals first
      | exact .init hl
      | exact .respond _ _ rfl (by simp)
  | setpix x y v => exact effect_setpix h
  | fill v =>
    simp only [exec, execFill] at h
    cases hl : s.life <;> simp only [hl] at h <;> cases h
    all_goals first
      | exact .fill hl
      | exact .respond _ _ rfl (by simp)
  | showFrame =>
    simp only [exec, execShow] at h
    cases hl : s.life <;> simp only [hl] at h <;> cases h
    all_goals first
      | exact .respond .notReady 0 rfl (by simp)
      | (rw [← hl]; exact .shows hl)
  | rdfb index => exact effect_rdfb h
  | rdstat => cases h; exact .respond _ _ rfl (by simp)
  | illegal w => cases h; exact .respond _ _ rfl (by simp)
  | ctrlCmd cmd => exact effect_sendCommandBytes rfl h
  | ctrlData chunk => exact effect_sendChunk rfl h
  | displayOff => exact effect_command .displayOff h
  | setClkdiv a => exact effect_command (.setClkdiv a) h
  | setMux a => exact effect_command (.setMux a) h
  | setOffset a => exact effect_command (.setOffset a) h
  | setStartline0 => exact effect_command .setStartline0 h
  | chargePump a => exact effect_command (.chargePump a) h
  | segRemap b => exact effect_command (.segRemap b) h
  | comScan b => exact effect_command (.comScan b) h
  | comPins a => exact effect_command (.comPins a) h
  | contrast a => exact effect_command (.contrast a) h
  | precharge a => exact effect_command (.precharge a) h
  | vcomh a => exact effect_command (.vcomh a) h
  | entireOff => exact effect_command .entireOff h
  | normal => exact effect_command .normal h
  | displayOn => exact effect_command .displayOn h
  | setPage p => exact effect_command (.setPage p) h
  | setColLo l => exact effect_command (.setColLo l) h
  | setColHi u => exact effect_command (.setColHi u) h
  | lockAcquire =>
    simp only [exec, execLockAcquire] at h
    split_ifs at h with h1 h2 <;> cases h
    · exact .granted (by simpa using h1)
    · exact .denied (by simpa using h1)
  | lockRelease =>
    simp only [exec, execLockRelease] at h
    split_ifs at h with h1
    cases h
    exact .released h1
  | txCmd cmd => exact effect_sendCommandBytes rfl h
  | txData chunk => exact effect_sendChunk rfl h
  | emitCmd c => exact effect_emitCommand rfl h
  | wait ms =>
    simp only [exec, execWait] at h
    split_ifs at h with h1
    cases h
    exact .wait h1
  | rstDirOut =>
    simp only [exec, execRstDirOut] at h
    split_ifs at h with h1
    cases h
    exact .rstDirOut h1
  | rstSet l =>
    simp only [exec, execRstSet] at h
    split_ifs at h with h1
    cases h
    exact .rstSet h1
  | withLock body => cases h; exact .withLock
  | drawGlyphR x y g => exact effect_pseudo (p := .drawGlyphR x y g) h
  | drawGlyphC x y g => exact effect_pseudo (p := .drawGlyphC x y g) h
  | drawText text x y font sp => exact effect_pseudo (p := .drawText text x y font sp) h
  | lookup font ch => exact effect_pseudo (p := .lookup font ch) h
  | centerX w => exact effect_pseudo (p := .centerX w) h
  | probeLock timeout => exact effect_pseudo (p := .probeLock timeout) h

/-- An instruction of a lock group never responds. -/
theorem hostOp_of_inGroup {i : Instr} : inGroup i = true → hostOp i = false := by
  cases i <;> intro h <;> first | rfl | cases h

/-- The only instruction that writes `STATE` is an accepted INIT (R25). -/
theorem exec_life {i : Instr} {s t : State} (h : exec i s = .next t) :
    t.life = s.life ∨
    (i = .init ∧ s.life = .uninit ∧ t.life = .initializing ∧ t.seq = initProgram s.cfg) := by
  cases exec_effect h with
  | write control payload later hi hl hf => exact .inl (transact_frame _ _ _).2.1
  | init hu => exact .inr ⟨rfl, hu, rfl, rfl⟩
  | _ => exact .inl rfl

/-- The host's program is touched by pseudo-operations alone (R230). -/
theorem exec_host {i : Instr} {s t : State} (h : exec i s = .next t) (hi : ∀ p : PseudoOp, i ≠ p.toInstr) :
    t.host = s.host := by
  cases exec_effect h with
  | write control payload later hg hl hf => exact (transact_frame _ _ _).2.2.2.2.2.2.2.2.2.2.1
  | pseudo p hp => exact absurd hp (hi p)
  | _ => rfl

/-- No operation word decodes to a pseudo-operation. -/
theorem decodeWord_ne_pseudo (w : Word) (p : PseudoOp) : decodeWord w ≠ p.toInstr := by
  unfold decodeWord
  split_ifs <;> cases p <;> simp [PseudoOp.toInstr]

/-! ## One step -/

/-- Every way a step can lead from one state to the next. -/
inductive StepEffect : State → State → Prop
  /-- nothing to do -/
  | waits {s : State} (hs : s.seq = []) (hh : s.host = []) : StepEffect s s
  /-- the host presents an operation word -/
  | presents {s : State} (w : Word) (rest : List HostItem) (hs : s.seq = []) (hh : s.host = .word w :: rest)
      (hb : s.busy = false) :
      StepEffect s { s with host := rest, req := w, busy := true, seq := [.fetch] }
  /-- the host expands a pseudo-operation -/
  | expands {s t : State} (p : PseudoOp) (rest : List HostItem) (hs : s.seq = []) (hh : s.host = .call p :: rest)
      (he : exec p.toInstr { s with host := rest } = .next t) : StepEffect s t
  /-- the sequencer runs the operation word -/
  | fetches {s t : State} (rest : List SeqItem) (hs : s.seq = .fetch :: rest)
      (he : exec (decodeWord s.req) { s with seq := rest } = .next t) : StepEffect s t
  /-- the sequencer runs a micro-operation -/
  | runs {s t : State} (i : Instr) (rest : List SeqItem) (hs : s.seq = .op i :: rest)
      (he : exec i { s with seq := rest } = .next t) : StepEffect s t
  | zeroes {s : State} (rest : List SeqItem) (hs : s.seq = .zeroFill :: rest) :
      StepEffect s ({ s with seq := rest }.fillFb 0x00)
  | flushes {s : State} (rest : List SeqItem) (bytes : List Byte) (hs : s.seq = .flush :: rest)
      (hd : s.fb.dump s.cfg.fbSize = .ok bytes) :
      StepEffect s ({ s with seq := rest }.push (lockGroup (flushBody s.cfg bytes)))
  | completes {s : State} (rest : List SeqItem) (hs : s.seq = .complete :: rest) :
      StepEffect s ({ s with seq := rest }.completeOp)
  | catches {s : State} (rest : List SeqItem) (hs : s.seq = .catchFail :: rest) :
      StepEffect s ({ s with seq := rest }.catchBusFail)

/-- Every step's next state is one of the effects. -/
theorem step_effect {s t : State} (h : step s = .next t) : StepEffect s t := by
  unfold step advance at h
  cases hs : s.seq with
  | nil =>
    simp only [hs, hostTurn] at h
    cases hh : s.host with
    | nil => simp only [hh] at h; cases h; exact .waits hs hh
    | cons item rest =>
      cases item with
      | word w =>
        simp only [hh, hostWrite] at h
        split_ifs at h with hb
        cases h
        exact .presents w rest hs hh (by simpa using hb)
      | call p => simp only [hh] at h; exact .expands p rest hs hh (by simpa only [hs] using h)
  | cons item rest =>
    simp only [hs, runItem] at h
    cases item with
    | fetch => exact .fetches rest hs h
    | op i => exact .runs i rest hs h
    | zeroFill => cases h; exact .zeroes rest hs
    | flush =>
      simp only at h
      cases hd : s.fb.dump s.cfg.fbSize with
      | error f => simp [hd] at h
      | ok bytes =>
        simp only [hd] at h
        cases h
        exact .flushes rest bytes hs hd
    | complete => cases h; exact .completes rest hs
    | catchFail => cases h; exact .catches rest hs

/-- With a micro-step pending, a step runs it. -/
theorem step_cons {s : State} {item : SeqItem} {rest : List SeqItem} (h : s.seq = item :: rest) :
    step s = runItem item { s with seq := rest } := by
  simp [step, advance, h]

end Sys2Proof.Machine
end

