-- ==== Sys2Proof/Laws/Seq.lean ====
section
/-! SUPPORT. The pending micro-steps: what `seqOk` says of the first one, that the programs of INIT and SHOW and every lock
group satisfy it, and that it ignores what comes after a failure. -/

namespace Sys2Proof
namespace Machine

variable {c : Cfg} {held : Bool} {rest : List SeqItem}

/-! ## The first micro-step -/

theorem seqOk_fetch : seqOk c held (.fetch :: rest) = true ↔ rest = [] ∧ held = false := by
  cases rest <;> simp [seqOk]

theorem seqOk_complete : seqOk c held (.complete :: rest) = true ↔ rest = [] ∧ held = false := by
  cases rest <;> simp [seqOk]

theorem seqOk_catchFail : seqOk c held (.catchFail :: rest) = true ↔ rest = [] ∧ held = false := by
  cases rest <;> simp [seqOk]

theorem seqOk_zeroFill : seqOk c held (.zeroFill :: rest) = true ↔ held = false ∧ seqOk c false rest = true := by
  cases held <;> simp [seqOk]

theorem seqOk_flush : seqOk c held (.flush :: rest) = true ↔ held = false ∧ seqOk c false rest = true := by
  cases held <;> simp [seqOk]

theorem seqOk_lockAcquire :
    seqOk c held (.op .lockAcquire :: rest) = true ↔ held = false ∧ seqOk c true rest = true := by
  cases held <;> simp [seqOk]

theorem seqOk_lockRelease :
    seqOk c held (.op .lockRelease :: rest) = true ↔ held = true ∧ seqOk c false rest = true := by
  cases held <;> simp [seqOk]

theorem seqOk_withLock {body : List MicroOp} :
    seqOk c held (.op (.withLock body) :: rest) = true ↔
      held = false ∧ body.all (MicroOp.wellFormed c) = true ∧ seqOk c false rest = true := by
  cases held <;> simp [seqOk]

theorem seqOk_inGroup {i : Instr} (h : inGroup i = true) :
    seqOk c held (.op i :: rest) = true ↔ held = true ∧ i.wellFormed c = true ∧ seqOk c true rest = true := by
  cases i <;> first | (simp [inGroup] at h; done) | (cases held <;> simp [seqOk, inGroup])

/-- The only instructions that can be pending, and what is pending after each. -/
theorem seqOk_op {i : Instr} (h : seqOk c held (.op i :: rest) = true) :
    (i = .lockAcquire ∧ held = false ∧ seqOk c true rest = true) ∨
    (i = .lockRelease ∧ held = true ∧ seqOk c false rest = true) ∨
    (∃ body, i = .withLock body ∧ held = false ∧ body.all (MicroOp.wellFormed c) = true ∧ seqOk c false rest = true) ∨
    (inGroup i = true ∧ held = true ∧ i.wellFormed c = true ∧ seqOk c true rest = true) := by
  cases hg : inGroup i with
  | true => exact .inr (.inr (.inr ⟨rfl, (seqOk_inGroup hg).1 h⟩))
  | false =>
    cases i with
    | lockAcquire => exact .inl ⟨rfl, seqOk_lockAcquire.1 h⟩
    | lockRelease => exact .inr (.inl ⟨rfl, seqOk_lockRelease.1 h⟩)
    | withLock body => exact .inr (.inr (.inl ⟨body, rfl, seqOk_withLock.1 h⟩))
    | _ => first | (simp [inGroup] at hg; done) | (cases held <;> simp [seqOk, inGroup] at h)

/-- Argument bytes still to be sent stay inside the held lock (R125). -/
theorem seqOk_later (later : List Byte) (h : seqOk c true rest = true) :
    seqOk c true (later.map (fun a => .op (.txCmd [a])) ++ rest) = true := by
  induction later with
  | nil => exact h
  | cons a later ih => exact (seqOk_inGroup rfl).2 ⟨rfl, rfl, ih⟩

/-! ## Lock groups and programs -/

end Machine

theorem MicroOp.inGroup_toInstr (m : MicroOp) : Machine.inGroup m.toInstr = true := by
  cases m with
  | command k => exact Machine.inGroup_command k
  | _ => rfl

theorem MicroOp.wellFormed_toInstr {c : Cfg} (m : MicroOp) : m.toInstr.wellFormed c = m.wellFormed c := by
  cases m with
  | command k => cases k <;> rfl
  | _ => rfl

namespace Machine

/-- A well-formed body inside a held lock leaves the lock held for what comes after it. -/
theorem seqOk_body (body : List MicroOp) (h : body.all (MicroOp.wellFormed c) = true) :
    seqOk c true (body.map (fun m => .op m.toInstr) ++ rest) = seqOk c true rest := by
  induction body with
  | nil => rfl
  | cons m body ih =>
    simp only [List.all_cons, Bool.and_eq_true] at h
    rw [List.map_cons, List.cons_append, Bool.eq_iff_iff, seqOk_inGroup m.inGroup_toInstr, m.wellFormed_toInstr,
      ih h.2]
    simp [h.1]

/-- A lock group of a well-formed body starts and ends with the lock free. -/
theorem seqOk_lockGroup (body : List MicroOp) (h : body.all (MicroOp.wellFormed c) = true) :
    seqOk c false (lockGroup body ++ rest) = seqOk c false rest := by
  rw [lockGroup, Bool.eq_iff_iff]
  simp only [List.cons_append, List.append_assoc]
  rw [seqOk_lockAcquire, seqOk_body body h]
  simp [seqOk_lockRelease]

theorem bringupBody_wellFormed (c : Cfg) : (bringupBody c).all (MicroOp.wellFormed c) = true := by
  simp [bringupBody, bringup, MicroOp.wellFormed, Command.wellFormed]

theorem resetPulseBody_wellFormed (h : c.hasReset = true) : resetPulseBody.all (MicroOp.wellFormed c) = true := by
  simp [resetPulseBody, MicroOp.wellFormed, h]

theorem seqOk_initProgram (c : Cfg) : seqOk c false (initProgram c) = true := by
  unfold initProgram
  have tail : seqOk c false [.op (.withLock (bringupBody c)), .zeroFill, .flush, .complete] = true := by
    rw [seqOk_withLock, seqOk_zeroFill, seqOk_flush, seqOk_complete]
    exact ⟨rfl, bringupBody_wellFormed c, rfl, rfl, rfl, rfl⟩
  split
  · rename_i h
    exact seqOk_withLock.2 ⟨rfl, resetPulseBody_wellFormed h, tail⟩
  · exact tail

theorem seqOk_showProgram (c : Cfg) : seqOk c false showProgram = true := by
  rw [showProgram, seqOk_flush, seqOk_complete]
  exact ⟨rfl, rfl, rfl⟩

/-! ## What the micro-steps need of the framebuffer -/

theorem needsFull_ops (l : List Instr) : needsFull (l.map .op ++ rest) = needsFull rest := by
  induction l with
  | nil => rfl
  | cons i l ih => exact ih

theorem needsFull_lockGroup (body : List MicroOp) : needsFull (lockGroup body ++ rest) = needsFull rest := by
  have : lockGroup body ++ rest = (Instr.lockAcquire :: body.map MicroOp.toInstr ++ [Instr.lockRelease]).map .op ++ rest := by
    simp [lockGroup, Function.comp_def]
  rw [this, needsFull_ops]

theorem needsFull_initProgram (c : Cfg) : needsFull (initProgram c) = false := by
  unfold initProgram
  split <;> rfl

/-! ## The chunks of a flush -/

end Machine

theorem Cfg.chunk_pos (c : Cfg) : 1 ≤ c.chunk := by
  have := c.isLegal
  simp only [Params.legal, Bool.and_eq_true, decide_eq_true_eq] at this
  omega

theorem Cfg.chunk_le (c : Cfg) : c.chunk ≤ 16 := by
  have := c.isLegal
  simp only [Params.legal, Bool.and_eq_true, decide_eq_true_eq] at this
  omega

theorem Cfg.pages_le (c : Cfg) : c.pages ≤ 16 := by
  have := c.isLegal
  simp only [Params.legal, Bool.and_eq_true, decide_eq_true_eq] at this
  unfold Cfg.pages
  omega

theorem Cfg.width_pos (c : Cfg) : 1 ≤ c.width := by
  have := c.isLegal
  simp only [Params.legal, Bool.and_eq_true, decide_eq_true_eq] at this
  omega

theorem Cfg.height_eq (c : Cfg) : c.height = 8 * c.pages := by
  have := c.isLegal
  simp only [Params.legal, Bool.and_eq_true, decide_eq_true_eq] at this
  unfold Cfg.pages
  omega

namespace Machine

theorem slice_length (l : List Byte) (i j : Nat) : (slice l i j).length = min (j - i) (l.length - i) := by
  simp [slice]

/-- A chunk index of a page starts inside the page. -/
theorem chunk_lt {w n k : Nat} (hn : 1 ≤ n) (hk : k < ceilDiv w n) : k * n < w := by
  unfold ceilDiv at hk
  have h1 : (k + 1) * n ≤ w + n - 1 := (Nat.le_div_iff_mul_le (by omega)).1 hk
  rw [Nat.add_mul] at h1
  omega

/-- A flush of a whole framebuffer is a well-formed lock group body (R211, R212). -/
theorem flushBody_wellFormed (c : Cfg) {bytes : List Byte} (h : bytes.length = c.fbSize) :
    (flushBody c bytes).all (MicroOp.wellFormed c) = true := by
  rw [List.all_eq_true]
  intro m hm
  obtain ⟨p, hp, hm⟩ := List.mem_flatMap.1 hm
  rw [List.mem_range] at hp
  rcases List.mem_append.1 hm with hm | hm
  · have := c.pages_le
    simp only [pageHeader, List.mem_cons, List.not_mem_nil, or_false] at hm
    rcases hm with rfl | rfl | rfl <;> simp [MicroOp.wellFormed, Command.wellFormed]
    omega
  · obtain ⟨k, hk, rfl⟩ := List.mem_map.1 hm
    rw [List.mem_range] at hk
    have h1 := chunk_lt c.chunk_pos hk
    have h2 := c.chunk_le
    have h3 := c.chunk_pos
    have h4 : (p + 1) * c.width ≤ c.pages * c.width := Nat.mul_le_mul_right _ hp
    have h5 : bytes.length = c.pages * c.width := by rw [h, Cfg.fbSize, Nat.mul_comm]
    rw [Nat.add_mul] at h4
    simp only [MicroOp.wellFormed, chunkOk, slice_length, Bool.and_eq_true, decide_eq_true_eq]
    omega

end Machine
end Sys2Proof
end

