-- ==== Sys2Proof/Laws/Run.lean ====
section
/-! SUPPORT. Runs of several steps: how they compose, and what a micro-operation of a lock group does in a run, when its
bus writes are acknowledged and when one fails. -/

namespace Sys2Proof.Machine

/-! ## Runs compose -/

theorem run_zero (s : State) : Sys2Proof.core.run 0 s = .next s := rfl

theorem run_succ {n : Nat} {s t : State} (h : step s = .next t) :
    Sys2Proof.core.run (n + 1) s = Sys2Proof.core.run n t := by
  have h' : Sys2Proof.core.step s = .next t := h
  simp only [Host.Core.run, h']

theorem run_add {m n : Nat} {s t : State} (h : Sys2Proof.core.run m s = .next t) :
    Sys2Proof.core.run (m + n) s = Sys2Proof.core.run n t := by
  induction m generalizing s with
  | zero =>
    rw [run_zero] at h
    cases h
    rw [Nat.zero_add]
  | succ m ih =>
    cases hs : step s with
    | next u =>
      rw [run_succ hs] at h
      rw [Nat.succ_add, run_succ hs]
      exact ih h
    | fault f => simp [Host.Core.run, Sys2Proof.core, hs] at h
    | refused f => simp [Host.Core.run, Sys2Proof.core, hs] at h

theorem Reaches.refl (s : State) : Reaches s s := ⟨0, rfl⟩

theorem Reaches.step {s t u : State} (h : Machine.step s = .next t) (h' : Reaches t u) : Reaches s u := by
  obtain ⟨n, h'⟩ := h'
  exact ⟨n + 1, (run_succ h).trans h'⟩

theorem Reaches.trans {s t u : State} (h : Reaches s t) (h' : Reaches t u) : Reaches s u := by
  obtain ⟨m, h⟩ := h
  obtain ⟨n, h'⟩ := h'
  exact ⟨m + n, (run_add h).trans h'⟩

theorem Reaches.one {s t : State} (h : Machine.step s = .next t) : Reaches s t := .step h (.refl t)

/-! ## Counting bus writes -/

theorem writeCount_append (es fs : List Event) : writeCount (es ++ fs) = writeCount es + writeCount fs := by
  simp [writeCount]

theorem writeCount_acked (c : Cfg) (ws : List (List Byte)) : writeCount (acked c ws) = ws.length := by
  induction ws with
  | nil => rfl
  | cons w ws ih => simp [writeCount, acked]

/-- Acknowledged writes cut at one of them. -/
theorem acked_split {c : Cfg} {ws : List (List Byte)} {pre post : List Event} {w : List Byte}
    (h : acked c ws = pre ++ .wr c.addr w .ack :: post) : ∃ p q, ws = p ++ w :: q ∧ pre = acked c p := by
  unfold acked at *
  rw [List.map_eq_append_iff] at h
  obtain ⟨p, q, rfl, hp, hq⟩ := h
  rw [List.map_eq_cons_iff] at hq
  obtain ⟨w', q', rfl, hw, hq⟩ := hq
  injection hw with _ hw _
  subst hw
  exact ⟨p, q', rfl, hp.symm⟩

/-! ## One transaction in a run -/

theorem exec_txCmd_held (cmd : List Byte) (h : commandBytesOk cmd = true) (s : State) (hl : s.lockHeld = true) :
    exec (.txCmd cmd) s = .next (transact 0x00 cmd (s.push [])) := by
  rw [push_nil]
  simp only [exec, execTxCmd, sendCommandBytes]
  rw [if_pos h, sendTransaction_held hl]

theorem exec_txData_held (chunk : List Byte) (h : chunkOk chunk = true) (s : State) (hl : s.lockHeld = true) :
    exec (.txData chunk) s = .next (transact 0x40 chunk (s.push [])) := by
  rw [push_nil]
  simp only [exec, execTxData, sendChunk]
  rw [if_pos h, sendTransaction_held hl]

/-- A pending micro-step that makes one bus write, acknowledged; `later` is what it leaves to do. -/
theorem step_write_ack {s : State} {i : Instr} {rest later : List SeqItem} {control : Byte} {payload : List Byte}
    {left : List BusResult} (hs : s.seq = .op i :: rest)
    (hl : s.lockHeld = true)
    (hx : ∀ u : State, u.lockHeld = true → u.cfg = s.cfg → exec i u = .next (transact control payload (u.push later)))
    (hb : s.env.busAnswers = .ack :: left) :
    step s = .next { s with
      seq := later ++ rest
      trace := s.trace ++ [.wr s.cfg.addr (control :: payload) .ack]
      env := { s.env with busAnswers := left, busDraws := s.env.busDraws + 1 } } := by
  rw [step_cons hs]
  simp only [runItem]
  rw [hx { s with seq := rest } hl rfl, transact_ack (busAnswer_of_cons (by exact hb))]
  simp [State.emit, State.busDrawn, State.push, hb]

/-- A pending micro-step that makes one bus write, failed: what is left is the release and the catch (R255). -/
theorem step_write_fail {s : State} {i : Instr} {rest later : List SeqItem} {control : Byte} {payload : List Byte}
    {left : List BusResult} (hs : s.seq = .op i :: rest)
    (hl : s.lockHeld = true)
    (hx : ∀ u : State, u.lockHeld = true → u.cfg = s.cfg → exec i u = .next (transact control payload (u.push later)))
    (hb : s.env.busAnswers = .fail :: left) :
    step s = .next { s with
      seq := [.op .lockRelease, .catchFail]
      trace := s.trace ++ [.wr s.cfg.addr (control :: payload) .fail]
      env := { s.env with busAnswers := left, busDraws := s.env.busDraws + 1 } } := by
  rw [step_cons hs]
  simp only [runItem]
  rw [hx { s with seq := rest } hl rfl, transact_fail (busAnswer_of_cons (by exact hb))]
  simp [State.emit, State.busDrawn, State.push, State.raiseBusFail, hb]

/-! ## EMIT_CMD in a run -/

/-- EMIT_CMD with the lock held, by its command's length and the grouping: what it sends and what it leaves to do. -/
theorem emitCommand_held {c : List Byte} {cfg : Cfg} (hc : (∃ b, c = [b]) ∨ ∃ b a, c = [b, a]) :
    (commandTransactions cfg.framing c = [0x00 :: c] ∧
      ∀ u : State, u.lockHeld = true → u.cfg = cfg → emitCommand c u = .next (transact 0x00 c (u.push []))) ∨
    (∃ b a, c = [b, a] ∧ commandTransactions cfg.framing c = [[0x00, b], [0x00, a]] ∧
      ∀ u : State, u.lockHeld = true → u.cfg = cfg →
        emitCommand c u = .next (transact 0x00 [b] (u.push [.op (.txCmd [a])]))) := by
  rcases hc with ⟨b, rfl⟩ | ⟨b, a, rfl⟩
  · left
    refine ⟨by cases cfg.framing <;> rfl, fun u hu _ => ?_⟩
    simp only [emitCommand]
    rw [sendTransaction_held hu, push_nil]
  · cases hf : cfg.framing with
    | perCommand =>
      left
      refine ⟨rfl, fun u hu hcfg => ?_⟩
      simp only [emitCommand, hcfg, hf]
      rw [sendTransaction_held hu, push_nil]
    | perByte =>
      right
      refine ⟨b, a, rfl, rfl, fun u hu hcfg => ?_⟩
      simp only [emitCommand, hcfg, hf]
      rw [sendTransaction_held (by exact hu)]

/-- A pending EMIT_CMD whose bus writes are all acknowledged. -/
theorem reaches_emit_ack {s : State} {i : Instr} {rest : List SeqItem} {c : List Byte} {left : List BusResult}
    (hs : s.seq = .op i :: rest) (hl : s.lockHeld = true) (hx : ∀ u : State, exec i u = emitCommand c u)
    (hc : (∃ b, c = [b]) ∨ ∃ b a, c = [b, a])
    (hb : s.env.busAnswers = List.replicate (commandTransactions s.cfg.framing c).length .ack ++ left) :
    Reaches s { s with
      seq := rest
      trace := s.trace ++ acked s.cfg (commandTransactions s.cfg.framing c)
      env := { s.env with
        busAnswers := left, busDraws := s.env.busDraws + (commandTransactions s.cfg.framing c).length } } := by
  rcases emitCommand_held (cfg := s.cfg) hc with ⟨h1, h2⟩ | ⟨b, a, rfl, h1, h2⟩
  · rw [h1] at hb ⊢
    exact .one (step_write_ack hs hl (fun u hu hcfg => (hx u).trans (h2 u hu hcfg)) hb)
  · rw [h1] at hb ⊢
    refine .step (step_write_ack hs hl (fun u hu hcfg => (hx u).trans (h2 u hu hcfg)) hb) (.one ?_)
    refine (step_write_ack (s := { s with
        seq := .op (.txCmd [a]) :: rest
        trace := s.trace ++ [.wr s.cfg.addr [0x00, b] .ack]
        env := { s.env with busAnswers := .ack :: left, busDraws := s.env.busDraws + 1 } })
      rfl hl (fun u hu _ => exec_txCmd_held [a] rfl u hu) rfl).trans ?_
    simp [acked]

/-- A pending EMIT_CMD whose first failing write is the one after `p`. -/
theorem reaches_emit_fail {s : State} {i : Instr} {rest : List SeqItem} {c : List Byte} {left : List BusResult}
    {p q : List (List Byte)} {w : List Byte} (hs : s.seq = .op i :: rest) (hl : s.lockHeld = true)
    (hx : ∀ u : State, exec i u = emitCommand c u) (hc : (∃ b, c = [b]) ∨ ∃ b a, c = [b, a])
    (hsp : commandTransactions s.cfg.framing c = p ++ w :: q)
    (hb : s.env.busAnswers = List.replicate p.length .ack ++ .fail :: left) :
    Reaches s { s with
      seq := [.op .lockRelease, .catchFail]
      trace := s.trace ++ (acked s.cfg p ++ [.wr s.cfg.addr w .fail])
      env := { s.env with busAnswers := left, busDraws := s.env.busDraws + (p.length + 1) } } := by
  rcases emitCommand_held (cfg := s.cfg) hc with ⟨h1, h2⟩ | ⟨b, a, rfl, h1, h2⟩
  · rw [h1] at hsp
    match p, hsp, hb with
    | [], hsp, hb =>
      simp only [List.nil_append, List.cons.injEq] at hsp
      obtain ⟨rfl, -⟩ := hsp
      exact .one (step_write_fail hs hl (fun u hu hcfg => (hx u).trans (h2 u hu hcfg)) hb)
    | _ :: p, hsp, hb => simp at hsp
  · rw [h1] at hsp
    match p, hsp, hb with
    | [], hsp, hb =>
      simp only [List.nil_append, List.cons.injEq] at hsp
      obtain ⟨rfl, -⟩ := hsp
      exact .one (step_write_fail hs hl (fun u hu hcfg => (hx u).trans (h2 u hu hcfg)) hb)
    | [_], hsp, hb =>
      simp only [List.cons_append, List.nil_append, List.cons.injEq] at hsp
      obtain ⟨rfl, rfl, -⟩ := hsp
      refine .step (step_write_ack hs hl (fun u hu hcfg => (hx u).trans (h2 u hu hcfg)) hb) (.one ?_)
      refine (step_write_fail (s := { s with
        seq := .op (.txCmd [a]) :: rest
        trace := s.trace ++ [.wr s.cfg.addr [0x00, b] .ack]
        env := { s.env with busAnswers := .fail :: left, busDraws := s.env.busDraws + 1 } })
      rfl hl (fun u hu _ => exec_txCmd_held [a] rfl u hu) rfl).trans ?_
      simp [acked]
    | _ :: _ :: p, hsp, hb => simp at hsp

/-! ## The reset line -/

/-- `RST_DRIVEN` after a micro-operation (R127). -/
def drivenAfter (driven : Bool) : MicroOp → Bool
  | .rstDirOut => true
  | .command _ | .emitCmd _ | .txCmd _ | .txData _ | .wait _ | .rstSet _ => driven

/-- `RST_LEVEL` after a micro-operation (R127). -/
def levelAfter (level : Bool) : MicroOp → Bool
  | .rstSet l => l
  | .command _ | .emitCmd _ | .txCmd _ | .txData _ | .wait _ | .rstDirOut => level

theorem oneCommand_shape {c : List Byte} (h : oneCommand c = true) : (∃ b, c = [b]) ∨ ∃ b a, c = [b, a] := by
  match c with
  | [] => cases h
  | [b] => exact .inl ⟨b, rfl⟩
  | [b, a] => exact .inr ⟨b, a, rfl⟩
  | _ :: _ :: _ :: _ => cases h

/-! ## One micro-operation of a lock group -/

/-- A micro-operation whose bus writes are all acknowledged. -/
theorem reaches_micro_ack {s : State} {m : MicroOp} {rest : List SeqItem} {left : List BusResult}
    (hs : s.seq = .op m.toInstr :: rest) (hl : s.lockHeld = true) (hw : m.wellFormed s.cfg = true)
    (hb : s.env.busAnswers = List.replicate (writeCount (microEvents s.cfg m)) .ack ++ left) :
    Reaches s { s with
      seq := rest
      trace := s.trace ++ microEvents s.cfg m
      rstDriven := drivenAfter s.rstDriven m
      rstLevel := levelAfter s.rstLevel m
      env := { s.env with
        busAnswers := left, busDraws := s.env.busDraws + writeCount (microEvents s.cfg m) } } := by
  cases m with
  | command k =>
    simp only [microEvents, writeCount_acked, ← Command.bytes_eq_sentBytes] at hb ⊢
    exact reaches_emit_ack hs hl (exec_command k) (Command.bytes_shape k) hb
  | emitCmd c =>
    simp only [microEvents, writeCount_acked] at hb ⊢
    exact reaches_emit_ack hs hl (fun _ => rfl) (oneCommand_shape hw) hb
  | txCmd c =>
    exact .one (step_write_ack hs hl (fun u hu _ => exec_txCmd_held c hw u hu) hb)
  | txData c =>
    exact .one (step_write_ack hs hl (fun u hu _ => exec_txData_held c hw u hu) hb)
  | wait ms =>
    refine .one ?_
    rw [step_cons hs]
    simp only [runItem, MicroOp.toInstr, exec, execWait]
    simp only [MicroOp.wellFormed, decide_eq_true_eq] at hw
    have : s.env.busAnswers = left := hb
    rw [if_pos hw]
    subst this
    rfl
  | rstDirOut =>
    refine .one ?_
    rw [step_cons hs]
    simp only [runItem, MicroOp.toInstr, exec, execRstDirOut]
    have : s.env.busAnswers = left := hb
    rw [if_pos (by exact hw)]
    subst this
    rfl
  | rstSet l =>
    refine .one ?_
    rw [step_cons hs]
    simp only [runItem, MicroOp.toInstr, exec, execRstSet]
    have : s.env.busAnswers = left := hb
    rw [if_pos (by exact hw)]
    subst this
    rfl

/-- A micro-operation whose first failing write is the one after the events `pre`. -/
theorem reaches_micro_fail {s : State} {m : MicroOp} {rest : List SeqItem} {left : List BusResult}
    {pre post : List Event} {w : List Byte} (hs : s.seq = .op m.toInstr :: rest) (hl : s.lockHeld = true)
    (hw : m.wellFormed s.cfg = true) (hsp : microEvents s.cfg m = pre ++ .wr s.cfg.addr w .ack :: post)
    (hb : s.env.busAnswers = List.replicate (writeCount pre) .ack ++ .fail :: left) :
    Reaches s { s with
      seq := [.op .lockRelease, .catchFail]
      trace := s.trace ++ (pre ++ [.wr s.cfg.addr w .fail])
      env := { s.env with busAnswers := left, busDraws := s.env.busDraws + (writeCount pre + 1) } } := by
  have alone : ∀ {w' : List Byte}, acked s.cfg [w'] = pre ++ .wr s.cfg.addr w .ack :: post → pre = [] ∧ w' = w := by
    intro w' h
    cases pre with
    | nil =>
      simp only [acked, List.map_cons, List.map_nil, List.nil_append, List.cons.injEq, Event.wr.injEq] at h
      exact ⟨rfl, h.1.2.1⟩
    | cons a p => cases p <;> simp [acked] at h
  cases m with
  | command k =>
    simp only [microEvents, ← Command.bytes_eq_sentBytes] at hsp
    obtain ⟨p, q, h1, rfl⟩ := acked_split hsp
    rw [writeCount_acked] at hb ⊢
    exact reaches_emit_fail hs hl (exec_command k) (Command.bytes_shape k) h1 hb
  | emitCmd c =>
    simp only [microEvents] at hsp
    obtain ⟨p, q, h1, rfl⟩ := acked_split hsp
    rw [writeCount_acked] at hb ⊢
    exact reaches_emit_fail hs hl (fun _ => rfl) (oneCommand_shape hw) h1 hb
  | txCmd c =>
    obtain ⟨rfl, rfl⟩ := alone hsp
    exact .one (step_write_fail hs hl (fun u hu _ => exec_txCmd_held c hw u hu) hb)
  | txData c =>
    obtain ⟨rfl, rfl⟩ := alone hsp
    exact .one (step_write_fail hs hl (fun u hu _ => exec_txData_held c hw u hu) hb)
  | wait ms =>
    cases pre with
    | nil => simp [microEvents] at hsp
    | cons a p => cases p <;> simp [microEvents] at hsp
  | rstDirOut =>
    cases pre with
    | nil => simp [microEvents] at hsp
    | cons a p => cases p <;> simp [microEvents] at hsp
  | rstSet l =>
    cases pre with
    | nil => simp [microEvents] at hsp
    | cons a p => cases p <;> simp [microEvents] at hsp

end Sys2Proof.Machine
end

