-- ==== Sys2Proof/Laws/Flush.lean ====
section
/-! SUPPORT. The flush (R211, R212, R215): how its slices join, and the events of its lock group body. -/

namespace Sys2Proof.Machine

/-- Two adjacent slices join (R9). -/
theorem slice_append (l : List Byte) (i j k : Nat) (h : i ≤ j) (h' : j ≤ k) :
    slice l i j ++ slice l j k = slice l i k := by
  unfold slice
  rw [show k - i = (j - i) + (k - j) by omega, List.take_add, List.drop_drop, show i + (j - i) = j by omega]

/-- The chunks of a page reach its end (R8, R212). -/
theorem le_ceilDiv_mul {w n : Nat} (hn : 1 ≤ n) : w ≤ ceilDiv w n * n := by
  unfold ceilDiv
  have h1 := Nat.div_add_mod (w + n - 1) n
  have h2 := Nat.mod_lt (w + n - 1) (show 0 < n by omega)
  rw [Nat.mul_comm] at h1
  omega

theorem flushWrites_length (c : Cfg) (bytes : List Byte) :
    (flushWrites c bytes).length = c.pages * (3 + ceilDiv c.width c.chunk) := by
  unfold flushWrites
  rw [List.length_flatMap]
  simp [Nat.add_comm]
  left
  omega

/-- The events of a flush's body are the acknowledged writes of R211 and R212, under both groupings. -/
theorem flushBody_events (c : Cfg) (bytes : List Byte) :
    (flushBody c bytes).flatMap (microEvents c) = acked c (flushWrites c bytes) := by
  unfold flushBody flushWrites acked
  rw [List.flatMap_assoc, List.map_flatMap]
  refine List.flatMap_congr ?_
  intro p hp
  have hp' : p < 16 := by
    have := c.pages_le
    rw [List.mem_range] at hp
    omega
  rw [List.flatMap_append, List.map_append]
  congr 1
  · have e1 : sentBytes (.setPage (BitVec.ofNat 4 p)) = [0xB0 + BitVec.ofNat 8 p] := by
      simp only [sentBytes]
      congr 2
      apply BitVec.eq_of_toNat_eq
      simp
      omega
    have e2 : sentBytes (.setColLo (c.colOffset.extractLsb' 0 4)) = [0x00 ||| (c.colOffset &&& 0x0F)] := by
      simp only [sentBytes]
      congr 2
      generalize c.colOffset = o
      revert o
      decide
    have e3 : sentBytes (.setColHi (c.colOffset.extractLsb' 4 4)) =
        [0x10 ||| ((c.colOffset >>> 4) &&& 0x0F)] := by
      simp only [sentBytes]
      congr 2
      generalize c.colOffset = o
      revert o
      decide
    simp only [pageHeader, List.flatMap_cons, List.flatMap_nil, microEvents, e1, e2, e3]
    cases c.framing <;> rfl
  · unfold pageData
    rw [List.flatMap_map]
    simp only [microEvents, acked, List.map_map, List.map_cons, List.map_nil]
    induction List.range (ceilDiv c.width c.chunk) with
    | nil => rfl
    | cons a l ih =>
      rw [List.flatMap_cons, ih]
      rfl

/-- The events of the bring-up's body: the acknowledged writes of R154, then the settle wait of R155. -/
theorem bringupBody_events (c : Cfg) :
    (bringupBody c).flatMap (microEvents c) = acked c (bringupWrites c) ++ [.wait 20] := by
  unfold bringupBody bringupWrites bringupTable
  rw [List.flatMap_append]
  congr 1
  simp only [bringup, List.map_cons, List.map_nil, List.flatMap_cons, List.flatMap_nil, microEvents,
    ← Command.bytes_eq_sentBytes, acked, List.map_append, Command.bytes, List.append_nil]

end Sys2Proof.Machine
end

