-- ==== Sys2Proof/Laws/Map.lean ====
section
/-! SUPPORT. The address mapper and the bit-write unit (R180 to R182), as arithmetic. -/

namespace Sys2Proof.Machine

/-- INRANGE as propositions (R181). -/
theorem inRange_iff {c : Cfg} {x y : Int} :
    inRange c x y = true ↔ (0 ≤ x ∧ x < c.width) ∧ (0 ≤ y ∧ y < c.height) := by
  simp [inRange, and_assoc]

/-- MAP as division and remainder (R180). -/
theorem mapXY_eq_some {c : Cfg} {x y : Int} {index bit : Nat} :
    mapXY c x y = some (index, bit) ↔
      inRange c x y = true ∧ index = y.toNat / 8 * c.width + x.toNat ∧ bit = y.toNat % 8 := by
  unfold mapXY
  have h7 : y.toNat &&& 7 = y.toNat % 8 := Nat.and_two_pow_sub_one_eq_mod y.toNat 3
  split_ifs with h
  · simp only [h7, Nat.shiftRight_eq_div_pow, Option.some.injEq, Prod.mk.injEq, h, true_and]
    exact ⟨fun h => ⟨h.1.symm, h.2.symm⟩, fun h => ⟨h.1.symm, h.2.symm⟩⟩
  · simp [h]

/-- MAP answers inside the framebuffer (R180). -/
theorem mapXY_lt {c : Cfg} {x y : Int} {index bit : Nat} (h : mapXY c x y = some (index, bit)) :
    index < c.fbSize ∧ bit < 8 := by
  obtain ⟨hr, rfl, rfl⟩ := mapXY_eq_some.1 h
  obtain ⟨⟨h1, h2⟩, h3, h4⟩ := inRange_iff.1 hr
  have hh := c.height_eq
  have page : y.toNat / 8 < c.pages := by omega
  have row : (y.toNat / 8 + 1) * c.width ≤ c.pages * c.width := Nat.mul_le_mul_right _ page
  rw [Nat.add_mul] at row
  refine ⟨?_, by omega⟩
  rw [Cfg.fbSize, Nat.mul_comm c.width]
  omega

/-- The written byte bit by bit (R182). -/
theorem bit_bitWriteByte (b : Byte) (bit : Nat) (hb : bit < 8) (v : Bool) (k : Nat) :
    (bitWriteByte b bit v).getLsbD k = if k = bit then v else b.getLsbD k := by
  by_cases hk : k < 8
  · interval_cases bit <;> interval_cases k <;> cases v <;> simp [bitWriteByte]
  · rw [if_neg (by omega), BitVec.getLsbD_of_ge _ k (by omega), BitVec.getLsbD_of_ge _ k (by omega)]

/-- SETPIX of an in-range pair in READY, in one equation (R183). -/
theorem exec_setpix_inRange {s : State} {x y : BitVec 12} {v : Bool} {index bit : Nat} {b : Byte}
    (h : s.life = .ready) (hm : mapXY s.cfg x.toInt y.toInt = some (index, bit)) (hb : s.readFb index = .ok b) :
    exec (.setpix x y v) s = .next ({ s with fb := s.fb.put index (bitWriteByte b bit v) }.respond .ok 0) := by
  simp only [exec, execSetpix, h, hm]
  rw [bitWrite_ok hb]
  simp [Except.map, outcomeOf, h]

/-- A second write to the same index replaces the first. -/
theorem Memory.put_put (m : Memory) (i : Nat) (v w : Byte) : Memory.put (m.put i v) i w = m.put i w := by
  induction m with
  | nil => simp [Memory.put]
  | cons p rest ih =>
    obtain ⟨a, b⟩ := p
    simp only [Memory.put]
    split_ifs with h1 h2
    · simp [Memory.put]
    · simp [Memory.put]
    · simp [Memory.put, h1, h2, ih]

end Sys2Proof.Machine
end

