-- ==== Sys2Proof/Laws/PerInstr.lean ====
section
/-! SUPPORT. Statements made for every instruction, one lemma per constructor. -/

/-! ## A well-formed instruction is encodable -/

/-- Whatever the configuration, a well-formed instruction's operands lie in what its encoding admits (R88, R92). -/
def Sys2Proof.Laws.WellFormedEncodable.Statement (i : Sys2Proof.Instr) : Prop :=
  ∀ c : Sys2Proof.Cfg, i.wellFormed c = true → i.encodable = true

namespace Sys2Proof

theorem Laws.WellFormedEncodable.init :
    Laws.WellFormedEncodable.Statement (.init) := fun _ _ => rfl

theorem Laws.WellFormedEncodable.setpix (x y : BitVec 12) (v : Bool) :
    Laws.WellFormedEncodable.Statement (.setpix x y v) := fun _ _ => rfl

theorem Laws.WellFormedEncodable.fill (v : Bool) :
    Laws.WellFormedEncodable.Statement (.fill v) := fun _ _ => rfl

theorem Laws.WellFormedEncodable.showFrame :
    Laws.WellFormedEncodable.Statement (.showFrame) := fun _ _ => rfl

theorem Laws.WellFormedEncodable.rdfb (index : BitVec 16) :
    Laws.WellFormedEncodable.Statement (.rdfb index) := fun _ _ => rfl

theorem Laws.WellFormedEncodable.rdstat :
    Laws.WellFormedEncodable.Statement (.rdstat) := fun _ _ => rfl

theorem Laws.WellFormedEncodable.illegal (word : Word) :
    Laws.WellFormedEncodable.Statement (.illegal word) := fun _ h => h

theorem Laws.WellFormedEncodable.ctrlCmd (commandBytes : List Byte) :
    Laws.WellFormedEncodable.Statement (.ctrlCmd commandBytes) := fun _ h => h

theorem Laws.WellFormedEncodable.ctrlData (chunk : List Byte) :
    Laws.WellFormedEncodable.Statement (.ctrlData chunk) := fun _ h => h

theorem Laws.WellFormedEncodable.displayOff :
    Laws.WellFormedEncodable.Statement (.displayOff) := fun _ _ => rfl

theorem Laws.WellFormedEncodable.setClkdiv (arg : Byte) :
    Laws.WellFormedEncodable.Statement (.setClkdiv arg) := fun _ _ => rfl

theorem Laws.WellFormedEncodable.setMux (arg : Byte) :
    Laws.WellFormedEncodable.Statement (.setMux arg) := fun _ _ => rfl

theorem Laws.WellFormedEncodable.setOffset (arg : Byte) :
    Laws.WellFormedEncodable.Statement (.setOffset arg) := fun _ _ => rfl

theorem Laws.WellFormedEncodable.setStartline0 :
    Laws.WellFormedEncodable.Statement (.setStartline0) := fun _ _ => rfl

theorem Laws.WellFormedEncodable.chargePump (arg : Byte) :
    Laws.WellFormedEncodable.Statement (.chargePump arg) := fun _ _ => rfl

theorem Laws.WellFormedEncodable.segRemap (h : Bool) :
    Laws.WellFormedEncodable.Statement (.segRemap h) := fun _ _ => rfl

theorem Laws.WellFormedEncodable.comScan (v : Bool) :
    Laws.WellFormedEncodable.Statement (.comScan v) := fun _ _ => rfl

theorem Laws.WellFormedEncodable.comPins (arg : Byte) :
    Laws.WellFormedEncodable.Statement (.comPins arg) := fun _ _ => rfl

theorem Laws.WellFormedEncodable.contrast (arg : Byte) :
    Laws.WellFormedEncodable.Statement (.contrast arg) := fun _ _ => rfl

theorem Laws.WellFormedEncodable.precharge (arg : Byte) :
    Laws.WellFormedEncodable.Statement (.precharge arg) := fun _ _ => rfl

theorem Laws.WellFormedEncodable.vcomh (arg : Byte) :
    Laws.WellFormedEncodable.Statement (.vcomh arg) := fun _ _ => rfl

theorem Laws.WellFormedEncodable.entireOff :
    Laws.WellFormedEncodable.Statement (.entireOff) := fun _ _ => rfl

theorem Laws.WellFormedEncodable.normal :
    Laws.WellFormedEncodable.Statement (.normal) := fun _ _ => rfl

theorem Laws.WellFormedEncodable.displayOn :
    Laws.WellFormedEncodable.Statement (.displayOn) := fun _ _ => rfl

theorem Laws.WellFormedEncodable.setPage (p : BitVec 4) :
    Laws.WellFormedEncodable.Statement (.setPage p) := fun _ _ => rfl

theorem Laws.WellFormedEncodable.setColLo (l : BitVec 4) :
    Laws.WellFormedEncodable.Statement (.setColLo l) := fun _ _ => rfl

theorem Laws.WellFormedEncodable.setColHi (u : BitVec 4) :
    Laws.WellFormedEncodable.Statement (.setColHi u) := fun _ _ => rfl

theorem Laws.WellFormedEncodable.lockAcquire :
    Laws.WellFormedEncodable.Statement (.lockAcquire) := fun _ _ => rfl

theorem Laws.WellFormedEncodable.lockRelease :
    Laws.WellFormedEncodable.Statement (.lockRelease) := fun _ _ => rfl

theorem Laws.WellFormedEncodable.txCmd (cmd : List Byte) :
    Laws.WellFormedEncodable.Statement (.txCmd cmd) := fun _ _ => rfl

theorem Laws.WellFormedEncodable.txData (chunk : List Byte) :
    Laws.WellFormedEncodable.Statement (.txData chunk) := fun _ _ => rfl

theorem Laws.WellFormedEncodable.emitCmd (c : List Byte) :
    Laws.WellFormedEncodable.Statement (.emitCmd c) := fun _ _ => rfl

theorem Laws.WellFormedEncodable.wait (ms : Nat) :
    Laws.WellFormedEncodable.Statement (.wait ms) := fun _ _ => rfl

theorem Laws.WellFormedEncodable.rstDirOut :
    Laws.WellFormedEncodable.Statement (.rstDirOut) := fun _ _ => rfl

theorem Laws.WellFormedEncodable.rstSet (level : Bool) :
    Laws.WellFormedEncodable.Statement (.rstSet level) := fun _ _ => rfl

theorem Laws.WellFormedEncodable.withLock (body : List MicroOp) :
    Laws.WellFormedEncodable.Statement (.withLock body) := fun _ _ => rfl

theorem Laws.WellFormedEncodable.drawGlyphR (x y : Int) (g : GlyphR) :
    Laws.WellFormedEncodable.Statement (.drawGlyphR x y g) := fun _ _ => rfl

theorem Laws.WellFormedEncodable.drawGlyphC (x y : Int) (g : GlyphC) :
    Laws.WellFormedEncodable.Statement (.drawGlyphC x y g) := fun _ _ => rfl

theorem Laws.WellFormedEncodable.drawText (text : List Char) (x y : Int) (font : Font) (spacing : Int) :
    Laws.WellFormedEncodable.Statement (.drawText text x y font spacing) := fun _ _ => rfl

theorem Laws.WellFormedEncodable.lookup (font : Font) (ch : Char) :
    Laws.WellFormedEncodable.Statement (.lookup font ch) := fun _ _ => rfl

theorem Laws.WellFormedEncodable.centerX (w : Nat) :
    Laws.WellFormedEncodable.Statement (.centerX w) := fun _ _ => rfl

theorem Laws.WellFormedEncodable.probeLock (timeout : Nat) :
    Laws.WellFormedEncodable.Statement (.probeLock timeout) := fun _ _ => rfl

end Sys2Proof
end

