-- ==== Sys2Proof/Tests/Slice0.lean ====
section
/-! SUPPORT. The model's own tests. The expected values are those of spec/95_test_vectors.md, named in each comment, or
are written out by hand from the rule that is named. The `witness_` theorems show, for each statement for the provers that
has hypotheses, a state and operands that meet them. -/

open Sys2Proof Sys2Proof.Machine

namespace Sys2Proof.Tests

/-! ## Small configurations and states -/

/-- The configuration of V-INIT-1: 4×8, one page. -/
def small : Cfg := { Params.reference with width := 4, height := 8, isLegal := by decide }

/-- V-INIT-2: the same under PER_BYTE. -/
def smallPerByte : Cfg := { Params.reference with width := 4, height := 8, framing := .perByte, isLegal := by decide }

/-- V-INIT-3: the same with a reset line and both mirrors. -/
def smallReset : Cfg :=
  { Params.reference with
    width := 4, height := 8, hasReset := true, hmirror := true, vmirror := true, isLegal := by decide }

/-- A block in READY with every framebuffer byte at `b`, just idle. -/
def ready (c : Cfg) (b : Byte) : State := { State.powerOn c with life := .ready, fb := Memory.filled c.fbSize b }

/-- A state with scripted answers of the arbiter and the bus. -/
def script (locks : List Bool) (writes : List BusResult) (s : State) : State :=
  { s with env := { s.env with lockAnswers := locks, busAnswers := writes } }

/-- A state with the word `w` just written to `REQ`. -/
def requested (w : Word) (s : State) : State := { s with req := w, busy := true, seq := [.fetch] }

/-- A state inside a lock group of SHOW, with `items` pending after the current micro-operation. -/
def inLock (s : State) (items : List SeqItem) : State := { s with lockHeld := true, busy := true, seq := items,
                                                                  trace := s.trace ++ [.acq] }

/-- The response of an outcome that is a next state. -/
def respOf : Host.Outcome State Fault Refusal → Option Word
  | .next s => some s.resp
  | .fault _ | .refused _ => none

/-- One reading of an outcome that is a next state. -/
def readOf {α : Type} (f : State → α) : Host.Outcome State Fault Refusal → Option α
  | .next s => some (f s)
  | .fault _ | .refused _ => none

/-- The refusal of an outcome that is one. -/
def refusalOf : Host.Outcome State Fault Refusal → Option Refusal
  | .refused r => some r
  | .next _ | .fault _ => none

/-- The fault of an outcome that is one. -/
def faultOf : Host.Outcome State Fault Refusal → Option Fault
  | .fault f => some f
  | .next _ | .refused _ => none

/-! ## Decoding (V-ENC-1 to V-ENC-23, R92, R94) -/

theorem test_decode_format_z :
    decodeWord 0x10000000 = .init ∧ decodeWord 0x40000000 = .showFrame ∧ decodeWord 0x60000000 = .rdstat := by decide

theorem test_decode_setpix :
    decodeWord 0x2800A005 = .setpix 5 10 true ∧ decodeWord 0x2000A005 = .setpix 5 10 false ∧
    decodeWord 0x2803F07F = .setpix 127 63 true := by decide

/-- V-ENC-8 to V-ENC-11: coordinates are two's complement. -/
theorem test_decode_setpix_signs :
    decodeWord 0x28000FFF = .setpix (BitVec.ofInt 12 (-1)) 0 true ∧
    decodeWord 0x28FFF000 = .setpix 0 (BitVec.ofInt 12 (-1)) true ∧
    decodeWord 0x28800800 = .setpix (BitVec.ofInt 12 (-2048)) (BitVec.ofInt 12 (-2048)) true ∧
    decodeWord 0x287FF7FF = .setpix 2047 2047 true := by decide

theorem test_decode_fill_and_rdfb :
    decodeWord 0x38000000 = .fill true ∧ decodeWord 0x30000000 = .fill false ∧
    decodeWord 0x500003FF = .rdfb 1023 ∧ decodeWord 0x5000FFFF = .rdfb 65535 := by decide

/-- V-ENC-16 to V-ENC-23. -/
theorem test_decode_illegal :
    decodeWord 0x00000000 = .illegal 0x00000000 ∧ decodeWord 0x70000000 = .illegal 0x70000000 ∧
    decodeWord 0xF0000000 = .illegal 0xF0000000 ∧ decodeWord 0x10000001 = .illegal 0x10000001 ∧
    decodeWord 0x4FFFFFFF = .illegal 0x4FFFFFFF ∧ decodeWord 0x29000000 = .illegal 0x29000000 ∧
    decodeWord 0x30000001 = .illegal 0x30000001 ∧ decodeWord 0x50010000 = .illegal 0x50010000 := by decide

/-- V-TX-1 and V-TX-3, read back; V-TX-2 is a command transaction although its command byte is 0x40. -/
theorem test_decode_transaction :
    decode (.transaction [0x00, 0xD5, 0x80]) = .ok (.ctrlCmd [0xD5, 0x80]) ∧
    decode (.transaction [0x40, 0x01, 0x00, 0x00, 0x80]) = .ok (.ctrlData [0x01, 0x00, 0x00, 0x80]) ∧
    decode (.transaction [0x00, 0x40]) = .ok (.ctrlCmd [0x40]) := ⟨rfl, rfl, rfl⟩

/-- R92: rejected by name. -/
theorem test_decode_transaction_rejects :
    decode (.transaction []) = .error .emptyTransaction ∧ decode (.transaction [0x80, 0x01]) = .error (.unknownControlByte 0x80) ∧
    decode (.transaction [0x00]) = .error .emptyPayload ∧ decode (.transaction [0x40]) = .error .emptyPayload ∧
    decode (.transaction (0x40 :: List.replicate 17 0x00)) = .error (.chunkTooLong 17) := ⟨rfl, rfl, rfl, rfl, rfl⟩

/-- R94: the commands without arguments. -/
theorem test_decode_command_opcode :
    decode (.command [0xAE]) = .ok .displayOff ∧ decode (.command [0x40]) = .ok .setStartline0 ∧
    decode (.command [0xA0]) = .ok (.segRemap false) ∧ decode (.command [0xA1]) = .ok (.segRemap true) ∧
    decode (.command [0xC0]) = .ok (.comScan false) ∧ decode (.command [0xC8]) = .ok (.comScan true) ∧
    decode (.command [0xA4]) = .ok .entireOff ∧ decode (.command [0xA6]) = .ok .normal ∧
    decode (.command [0xAF]) = .ok .displayOn ∧ decode (.command [0xB7]) = .ok (.setPage 7) ∧
    decode (.command [0x0A]) = .ok (.setColLo 0xA) ∧ decode (.command [0x12]) = .ok (.setColHi 2) :=
  ⟨rfl, rfl, rfl, rfl, rfl, rfl, rfl, rfl, rfl, rfl, rfl, rfl⟩

/-- R94: the commands with one argument. -/
theorem test_decode_command_argument :
    decode (.command [0xD5, 0x80]) = .ok (.setClkdiv 0x80) ∧ decode (.command [0xA8, 0x3F]) = .ok (.setMux 0x3F) ∧
    decode (.command [0xD3, 0x00]) = .ok (.setOffset 0x00) ∧ decode (.command [0xAD, 0x8B]) = .ok (.chargePump 0x8B) ∧
    decode (.command [0xDA, 0x12]) = .ok (.comPins 0x12) ∧ decode (.command [0x81, 0x7F]) = .ok (.contrast 0x7F) ∧
    decode (.command [0xD9, 0xF1]) = .ok (.precharge 0xF1) ∧ decode (.command [0xDB, 0x40]) = .ok (.vcomh 0x40) :=
  ⟨rfl, rfl, rfl, rfl, rfl, rfl, rfl, rfl⟩

theorem test_decode_command_rejects :
    decode (.command []) = .error .emptyCommand ∧ decode (.command [0xA5]) = .error (.unknownOpcode 0xA5) ∧
    decode (.command [0xD5]) = .error (.missingArgument 0xD5) ∧
    decode (.command [0xAE, 0xAF]) = .error (.trailingBytes 1) := ⟨rfl, rfl, rfl, rfl⟩

/-- V-ENC and V-GLY-7: the assembler's words, and the coordinate it rejects (R98). -/
theorem test_assemble :
    assemble (.setpix 127 63 1) = some 0x2803F07F ∧ assemble (.setpix (-1) 0 1) = some 0x28000FFF ∧
    assemble (.setpix 2049 0 1) = none ∧ assemble (.fill 2) = none ∧ assemble (.rdfb 65536) = none ∧
    assemble (.rdfb 1023) = some 0x500003FF := by decide

/-- The opcode table's words. -/
theorem test_table_words :
    decodeTableWord 32 0x40000000 = some .showFrame ∧ decodeTableWord 8 0xAE = some .displayOff ∧
    decodeTableWord 8 0xD5 = some (.setClkdiv 0) ∧ decodeTableWord 8 0x40 = some (.ctrlData [0]) ∧
    decodeTableWord 8 0xA5 = none ∧ decodeTableWord 16 0 = none := by decide

/-! ## Well-formedness: each check refuses an ill-formed term -/

/-- R6: each range of the configuration. -/
theorem test_params_refused :
    Params.legal Params.reference = true ∧
    Params.legal { Params.reference with width := 0 } = false ∧ Params.legal { Params.reference with width := 2048 } = false ∧
    Params.legal { Params.reference with height := 12 } = false ∧ Params.legal { Params.reference with height := 0 } = false ∧
    Params.legal { Params.reference with height := 136 } = false ∧ Params.legal { Params.reference with chunk := 0 } = false ∧
    Params.legal { Params.reference with chunk := 17 } = false ∧
    Params.toCfg? { Params.reference with chunk := 17 } = none := by decide

theorem test_wellFormed_refuses_words_and_transactions :
    ∀ i ∈ [Instr.illegal 0x10000000, .ctrlCmd [], .ctrlData [], .ctrlData (List.replicate 17 0)],
      i.wellFormed small = false := by decide

theorem test_wellFormed_refuses_command_arguments :
    ∀ i ∈ [Instr.setClkdiv 0x81, .setMux 0x3F, .setOffset 1, .chargePump 0x8A, .segRemap true, .comScan true,
        .comPins 0x02, .contrast 0x80, .precharge 0x22, .vcomh 0x20, .setPage 1, .setColLo 3, .setColHi 1],
      i.wellFormed small = false := by decide

theorem test_wellFormed_refuses_microoperations :
    ∀ i ∈ [Instr.txCmd [], .txData [], .txData (List.replicate 17 0), .emitCmd [], .emitCmd [0xAE, 0x00], .emitCmd [0xD5],
        .emitCmd [0xA5], .emitCmd [0xD5, 0x80, 0x00], .wait 0, .rstDirOut, .rstSet true,
        .withLock [.txCmd [0xAE], .wait 0], .withLock [.command (.setPage 1)]],
      i.wellFormed small = false := by decide

/-- An invented glyph with one '1' cell in its top row (V-GLY-1). -/
def oneCell : GlyphR :=
  { rows := #v[#v[false, false, true, false, false], #v[false, false, false, false, false],
      #v[false, false, false, false, false], #v[false, false, false, false, false], #v[false, false, false, false, false]] }

/-- V-GLY-7: one '1' cell at the right end of the top row. -/
def rightCell : GlyphR :=
  { rows := #v[#v[false, false, false, false, true], #v[false, false, false, false, false],
      #v[false, false, false, false, false], #v[false, false, false, false, false], #v[false, false, false, false, false]] }

/-- V-GLY-2's column glyph. -/
def columnGlyph : GlyphC := { cols := #v[0x7F, 0x00, 0x00, 0x00, 0x81] }

theorem test_wellFormed_refuses_fonts :
    ∀ i ∈ [Instr.drawText [] 0 0 (.rowMajor [('?', oneCell)]) 1, .drawText [] 0 0 (.colMajor [(' ', columnGlyph)]) 1,
        .lookup (.rowMajor []) 'A', .lookup (.colMajor []) 'A'],
      i.wellFormed small = false := by decide

/-! ## Mapper and bit-write unit -/

/-- V-MAP-1 to V-MAP-14. -/
theorem test_map :
    mapXY Cfg.reference 0 0 = some (0, 0) ∧ mapXY Cfg.reference 127 63 = some (1023, 7) ∧
    mapXY Cfg.reference 5 10 = some (133, 2) ∧ mapXY Cfg.reference 0 8 = some (128, 0) ∧
    mapXY Cfg.reference 3 7 = some (3, 7) ∧ mapXY Cfg.reference 64 32 = some (576, 0) := by decide

theorem test_map_out_of_range :
    ∀ p ∈ ([(-1, 0), (0, -1), (128, 0), (0, 64), (-2048, -2048), (2047, 2047)] : List (Int × Int)),
      mapXY Cfg.reference p.1 p.2 = none := by decide

/-- V-BW-1 to V-BW-6. -/
theorem test_bitWriteByte :
    bitWriteByte 0x00 2 true = 0x04 ∧ bitWriteByte 0xFF 2 false = 0xFB ∧ bitWriteByte 0x04 2 true = 0x04 ∧
    bitWriteByte 0xFB 2 false = 0xFB ∧ bitWriteByte 0x80 0 true = 0x81 ∧ bitWriteByte 0x81 7 false = 0x01 := by decide

/-! ## Host operations -/

/-- V-EXC-1 to V-EXC-6: UNINIT. -/
theorem test_uninit_responses :
    ([0x28000000, 0x38000000, 0x40000000, 0x50000000, 0x60000000, 0x50010000] : List Word).map
      (fun w => respOf (step (requested w (State.powerOn small)))) =
    [some 0x20000000, some 0x20000000, some 0x20000000, some 0x20000000, some 0x00000000, some 0x10000000] := by decide

/-- V-EXC-7, V-EXC-14: READY. -/
theorem test_ready_responses :
    ([0x10000000, 0x10000001, 0x50000003, 0x50000004] : List Word).map
      (fun w => respOf (step (requested w (ready small 0x5A)))) =
    [some 0x30000000, some 0x10000000, some 0x0000005A, some 0x50000000] := by decide

/-- V-STAT-3 and V-STAT-5: READY and FAILED with the reset line driven. -/
theorem test_rdstat :
    respOf (exec .rdstat { ready smallReset 0 with rstDriven := true, rstLevel := true }) = some 0x0000001A ∧
    respOf (exec .rdstat { ready smallReset 0 with life := .failed, rstDriven := true, rstLevel := true }) =
      some 0x0000001B := by decide

/-- P2 line 3, on one page: clearing one pixel of 0xFF. -/
theorem test_setpix_clears :
    readOf State.fb (exec (.setpix 1 2 false) (ready small 0xFF)) = some [(0, 0xFF), (1, 0xFB), (2, 0xFF), (3, 0xFF)] := by
  decide

/-- L1-2: out of range. -/
theorem test_setpix_out_of_range :
    readOf State.fb (exec (.setpix 4 0 true) (ready small 0)) = some (ready small 0).fb ∧
    respOf (exec (.setpix 4 0 true) (ready small 0)) = some 0 := by decide

/-- L1-3. -/
theorem test_fill :
    readOf State.fb (exec (.fill true) (ready small 0x12)) = some [(0, 0xFF), (1, 0xFF), (2, 0xFF), (3, 0xFF)] := by decide

/-- R150: INIT's micro-steps with and without the reset line. -/
theorem test_init_accepted :
    readOf (fun s => (s.life, s.seq.length)) (exec .init (State.powerOn small)) = some (.initializing, 4) ∧
    readOf (fun s => (s.life, s.seq.length)) (exec .init (State.powerOn smallReset)) = some (.initializing, 5) := by decide

/-- R156: reading a byte that nothing has written is the model's fault, and no index beyond the framebuffer exists. -/
theorem test_framebuffer_faults :
    faultOf (exec (.rdfb 3) { State.powerOn small with life := .ready }) = some .unwrittenByte ∧
    faultOf (outcomeOf (bitWrite 4 0 true (ready small 0))) = some .noSuchByte := by decide

/-! ## Micro-operations -/

/-- V-TX-1, V-TX-2. -/
theorem test_tx_cmd :
    readOf State.trace (exec (.txCmd [0xD5, 0x80]) (script [] [.ack] (inLock (ready small 0) []))) =
      some [.acq, .wr 0x3C [0x00, 0xD5, 0x80] .ack] ∧
    readOf State.trace (exec (.ctrlCmd [0x40]) (script [] [.ack] (inLock (ready small 0) []))) =
      some [.acq, .wr 0x3C [0x00, 0x40] .ack] := by decide

/-- V-TX-3. -/
theorem test_tx_data :
    readOf State.trace (exec (.txData [0x01, 0x00, 0x00, 0x80]) (script [] [.ack] (inLock (ready small 0) []))) =
      some [.acq, .wr 0x3C [0x40, 0x01, 0x00, 0x00, 0x80] .ack] ∧
    readOf State.trace (exec (.ctrlData [0x01]) (script [] [.fail] (inLock (ready small 0) []))) =
      some [.acq, .wr 0x3C [0x40, 0x01] .fail] := by decide

/-- V-TX-4, V-TX-5. -/
theorem test_emit_cmd :
    readOf (fun s => (s.trace, s.seq)) (exec (.emitCmd [0xA8, 0x3F]) (script [] [.ack] (inLock (ready small 0) []))) =
      some ([.acq, .wr 0x3C [0x00, 0xA8, 0x3F] .ack], []) ∧
    readOf (fun s => (s.trace, s.seq)) (exec (.emitCmd [0xA8, 0x3F]) (script [] [.ack] (inLock (ready smallPerByte 0) []))) =
      some ([.acq, .wr 0x3C [0x00, 0xA8] .ack], [.op (.txCmd [0x3F])]) := by decide

/-- V-TX-6: the argument byte is dropped when the opcode byte fails. -/
theorem test_emit_cmd_fails :
    readOf (fun s => (s.trace, s.seq)) (exec (.emitCmd [0xA8, 0x3F]) (script [] [.fail] (inLock (ready smallPerByte 0) []))) =
      some ([.acq, .wr 0x3C [0x00, 0xA8] .fail], [.op .lockRelease, .catchFail]) := by decide

/-- V-BU-4 to V-BU-9 and the rest of R94's column of bytes: one bus write for each command. -/
theorem test_command_bytes :
    ([Command.displayOff, .setClkdiv 0x80, .setMux 0x3F, .setOffset 0, .setStartline0, .chargePump 0x8B, .segRemap true,
        .comScan true, .comPins 0x12, .contrast 0x7F, .precharge 0xF1, .vcomh 0x40, .entireOff, .normal, .displayOn,
        .setPage 7, .setColLo 2, .setColHi 0] : List Command).map (fun k =>
      (readOf State.trace (exec k.toInstr (script [] [.ack] (inLock (ready small 0) []))))) =
    ([[0xAE], [0xD5, 0x80], [0xA8, 0x3F], [0xD3, 0x00], [0x40], [0xAD, 0x8B], [0xA1], [0xC8], [0xDA, 0x12], [0x81, 0x7F],
        [0xD9, 0xF1], [0xDB, 0x40], [0xA4], [0xA6], [0xAF], [0xB7], [0x02], [0x10]] : List (List Byte)).map (fun k =>
      some [.acq, .wr 0x3C (0x00 :: k) .ack]) := by decide

/-- V-TX-9: a denied try has no event and comes again. -/
theorem test_lock_acquire :
    readOf (fun s => (s.lockHeld, s.trace, s.seq)) (exec .lockAcquire (script [false] [] (State.powerOn small))) =
      some (false, [], [.op .lockAcquire]) ∧
    readOf (fun s => (s.lockHeld, s.trace, s.seq)) (exec .lockAcquire (script [true] [] (State.powerOn small))) =
      some (true, [.acq], []) := by decide

theorem test_lock_release :
    readOf (fun s => (s.lockHeld, s.trace)) (exec .lockRelease (inLock (ready small 0) [])) = some (false, [.acq, .rel]) ∧
    refusalOf (exec .lockRelease (ready small 0)) = some .lockNotHeld := by decide

theorem test_wait_and_reset_line :
    readOf State.trace (exec (.wait 20) (inLock (ready small 0) [])) = some [.acq, .wait 20] ∧
    readOf (fun s => (s.rstDriven, s.trace)) (exec .rstDirOut (inLock (ready smallReset 0) [])) =
      some (true, [.acq, .gdir]) ∧
    readOf (fun s => (s.rstLevel, s.trace)) (exec (.rstSet true) (inLock (ready smallReset 0) [])) =
      some (true, [.acq, .gset true]) := by decide

/-- The body of V-TX-8. -/
theorem test_with_lock :
    readOf State.seq (exec (.withLock [.txCmd [0xAE], .txCmd [0xAF]]) { ready small 0 with seq := [.complete] }) =
      some [.op .lockAcquire, .op (.txCmd [0xAE]), .op (.txCmd [0xAF]), .op .lockRelease, .complete] := by decide

/-- R154, R159: V-BU-10 and V-BU-11. -/
theorem test_bringup_counts :
    (bringupWrites small).length = 15 ∧ (bringupWrites smallPerByte).length = 23 := by decide

/-- V-SH-1 and V-SH-5: the writes of a flush. -/
theorem test_flush_writes :
    flushWrites small [0x01, 0x00, 0x00, 0x80] =
      [[0x00, 0xB0], [0x00, 0x02], [0x00, 0x10], [0x40, 0x01, 0x00, 0x00, 0x80]] ∧
    (flushWrites { Params.reference with width := 12, height := 8, chunk := 5, isLegal := by decide }
      (List.replicate 12 0)).map List.length = [2, 2, 2, 6, 6, 3] := by decide

/-! ## Host pseudo-operations -/

/-- V-GLY-1, V-GLY-7. -/
theorem test_draw_glyph_r :
    readOf State.host (exec (.drawGlyphR 10 3 oneCell) (ready small 0)) = some [.word 0x2800300C] ∧
    readOf State.host (exec (.drawGlyphR 2045 0 rightCell) (ready small 0)) = some [] := by decide

/-- V-GLY-2. -/
theorem test_draw_glyph_c :
    readOf State.host (exec (.drawGlyphC 0 0 columnGlyph) (ready small 0)) =
      some (([0x28000000, 0x28001000, 0x28002000, 0x28003000, 0x28004000, 0x28005000, 0x28006000, 0x28000004] :
        List Word).map .word) := by decide

/-- V-GLY-5: the second character is at cx = 6, from R234's `cx + 5 + spacing`; and V-GLY-4. -/
theorem test_draw_text :
    readOf State.host (exec (.drawText ['A', 'B'] 0 0 (.rowMajor [(' ', oneCell)]) 1) (ready small 0)) =
      some [.word 0x28000002, .word 0x28000008] ∧
    readOf State.host (exec (.drawText [] 7 7 (.rowMajor [(' ', oneCell)]) 1) (ready small 0)) = some [] := by decide

/-- R235: an entry, and the default of V-GLY-6. -/
theorem test_lookup :
    readOf State.hostValue (exec (.lookup (.rowMajor [(' ', oneCell), ('A', rightCell)]) 'A') (ready small 0)) =
      some (.glyph (.rowMajor rightCell)) ∧
    readOf State.hostValue (exec (.lookup (.colMajor [('?', columnGlyph)]) 'a') (ready small 0)) =
      some (.glyph (.colMajor columnGlyph)) := by decide

/-- L1-7. -/
theorem test_center_x :
    ([30, 11, 0, 128, 200] : List Nat).map (fun w => readOf State.hostValue (exec (.centerX w) State.reset)) =
      [some (.number 49), some (.number 58), some (.number 64), some (.number 0), some (.number 0)] := by decide

/-- R237: granted; denied with the timeout elapsed. -/
theorem test_probe_lock :
    readOf State.hostValue (exec (.probeLock 1000) (script [true] [] (ready small 0))) = some (.probe true) ∧
    readOf State.hostValue (exec (.probeLock 1000)
      { ready small 0 with env := { Env.fresh with lockAnswers := [false], clockAnswers := [true] } }) =
      some (.probe false) := by decide

/-! ## Placing a word for the next step -/

theorem test_withFetchWord :
    respOf (step (State.reset.withFetchWord 32 0x60000000)) = some 0 ∧
    (∃ t, step (State.reset.withFetchWord 8 0xAE) = .next t) := ⟨by decide, _, rfl⟩

/-! ## Witnesses: the hypotheses of the statements for the provers can be met -/

theorem witness_DecodeOfEncodeIsIdentity :
    (Instr.ctrlData (List.replicate 16 0)).encodable = true ∧ (Instr.ctrlCmd [0]).encodable = true ∧
    (encode (.ctrlData (List.replicate 16 0))).isSome = true ∧ (encode (.ctrlCmd [0])).isSome = true ∧
    (Instr.illegal 0).encodable = true ∧ (encode (.illegal 0)).isSome = true := by decide

theorem witness_EncodeOfDecodeIsIdentity :
    decode (.command [0xB7]) = .ok (.setPage 7) ∧ decode (.opWord 0) = .ok (.illegal 0) ∧
    decode (.transaction [0x00, 0x40]) = .ok (.ctrlCmd [0x40]) := ⟨rfl, rfl, rfl⟩

theorem witness_IllegalWordHasNoEffect :
    wordIllegal 0x10000001 = true ∧ decodeWord 0x10000001 = .illegal 0x10000001 := by decide

/-- Both ends of the coordinate field, and both values of v. -/
theorem witness_AssemblerNeverWraps :
    (assemble (.setpix (-2048) 2047 0)).isSome = true ∧ (assemble (.setpix 2047 (-2048) 1)).isSome = true := by decide

theorem witness_HostWriteOnlyWhileIdle :
    (ready small 0).busy = false ∧ (requested 0 (ready small 0)).busy = true ∧
    ∃ s : State, s.busy = false ∧ s.seq = [] ∧ s.host = [.word 0x60000000] :=
  ⟨rfl, rfl, { ready small 0 with host := [.word 0x60000000] }, rfl, rfl, rfl⟩

theorem witness_StepRunsDecodedInstruction :
    (∃ s : State, s.seq = [.fetch]) ∧ (∃ s : State, s.seq = [.op (.wait 20), .complete]) ∧
    (∃ s : State, s.seq = [] ∧ s.host = [.call (.centerX 30)]) :=
  ⟨⟨requested 0 (ready small 0), rfl⟩, ⟨inLock (ready small 0) [.op (.wait 20), .complete], rfl⟩,
    ⟨{ ready small 0 with host := [.call (.centerX 30)] }, rfl, rfl⟩⟩

theorem witness_IdleBlockWaits : State.reset.seq = [] ∧ State.reset.host = [] := by decide

theorem witness_StateChecksHaveNoEffect :
    State.reset.life ≠ .ready ∧ (ready small 0).life ≠ .uninit := by decide

/-- The last in-range pair; its index and bit are the last ones; two configurations that differ elsewhere. -/
theorem witness_MapperIsBijection :
    mapXY Cfg.reference 127 63 = some (1023, 7) ∧ 1023 < Cfg.reference.fbSize ∧ 7 < 8 ∧ small ≠ smallReset ∧
    smallReset.width = small.width ∧ smallReset.height = small.height := by decide

theorem witness_SetpixInRangeWritesOneBit :
    (ready small 0xFF).life = .ready ∧
    mapXY (ready small 0xFF).cfg (3 : BitVec 12).toInt (7 : BitVec 12).toInt = some (3, 7) ∧
    (ready small 0xFF).readFb 3 = .ok 0xFF := ⟨rfl, by decide, rfl⟩

theorem witness_SetpixOutOfRangeIsNoOp :
    (ready small 0).life = .ready ∧
    ¬ ((0 ≤ (4 : BitVec 12).toInt ∧ (4 : BitVec 12).toInt < (ready small 0).cfg.width) ∧
      (0 ≤ (0 : BitVec 12).toInt ∧ (0 : BitVec 12).toInt < (ready small 0).cfg.height)) := by decide

/-- Both instructions, run twice. -/
theorem witness_SetpixAndFillAreIdempotent :
    (∃ t u, exec (.setpix 3 7 true) (ready small 0) = .next t ∧ exec (.setpix 3 7 true) t = .next u) ∧
    (∃ t u, exec (.fill true) (ready small 0) = .next t ∧ exec (.fill true) t = .next u) :=
  ⟨⟨_, _, rfl, rfl⟩, ⟨_, _, rfl, rfl⟩⟩

theorem witness_FillWritesEveryByte :
    (ready small 0).life = .ready ∧ State.reset.life ≠ .ready ∧ 3 < (ready small 0).cfg.fbSize := by decide

theorem witness_FillOneThenZeroClears : (ready small 0).life = .ready ∧ 3 < small.fbSize := by decide

/-- The last index, and the first one beyond it. -/
theorem witness_RdfbReadsOrRange :
    (ready small 0x5A).life = .ready ∧ (ready small 0x5A).readFb (3 : BitVec 16).toNat = .ok 0x5A ∧
    (ready small 0x5A).cfg.fbSize ≤ (4 : BitVec 16).toNat ∧ State.reset.life ≠ .ready := ⟨rfl, rfl, by decide, by decide⟩

theorem witness_SetpixThenRdfbReadsBack :
    (ready small 0).life = .ready ∧ Memory.full (ready small 0).cfg.fbSize (ready small 0).fb = true ∧
    mapXY (ready small 0).cfg (3 : BitVec 12).toInt (7 : BitVec 12).toInt = some (3, 7) ∧
    (4 : BitVec 16).toNat ≠ 3 := by decide

theorem witness_InitAndShowAreAccepted :
    (State.powerOn smallReset).life = .uninit ∧ (ready small 0).life = .ready := by decide

theorem witness_BringupTransactionCounts :
    small.framing = .perCommand ∧ smallPerByte.framing = .perByte := by decide

theorem witness_FlushCoversFramebufferOnce : (List.replicate 4 (0x5A : Byte)).length = small.fbSize := by decide

theorem witness_FlushShapeIgnoresContents :
    ([0x01, 0x02, 0x03, 0x04] : List Byte).length = (List.replicate 4 (0x5A : Byte)).length := by decide

theorem witness_LockAcquireTriesOnce :
    (script [true] [] State.reset).lockHeld = false ∧ (script [true] [] State.reset).lockAnswer = true ∧
    (script [false] [] State.reset).lockHeld = false ∧ (script [false] [] State.reset).lockAnswer = false := by decide

theorem witness_LockAcquireRetriesUntilGranted :
    ∃ s : State, s.lockHeld = false ∧ s.seq = .op .lockAcquire :: [.complete] ∧
      s.env.lockAnswers = List.replicate 2 false ++ true :: [] :=
  ⟨{ script [false, false, true] [] (ready small 0) with seq := [.op .lockAcquire, .complete] }, rfl, rfl, rfl⟩

theorem witness_LockReleaseFreesTheLock : (inLock (ready small 0) []).lockHeld = true := by decide

/-- A held lock with each answer of the bus, for the statements about one bus write. -/
theorem witness_CommandTransactionIsOneWrite :
    (script [] [.ack] (inLock (ready small 0) [])).lockHeld = true ∧ 1 ≤ ([0xAE] : List Byte).length ∧
    (script [] [.ack] (inLock (ready small 0) [])).busAnswer = .ack ∧
    (script [] [.fail] (inLock (ready small 0) [])).lockHeld = true ∧
    (script [] [.fail] (inLock (ready small 0) [])).busAnswer = .fail := by decide

/-- The shortest and the longest chunk. -/
theorem witness_DataTransactionIsOneWrite :
    (script [] [.ack] (inLock (ready small 0) [])).lockHeld = true ∧
    (script [] [.ack] (inLock (ready small 0) [])).busAnswer = .ack ∧
    (script [] [.fail] (inLock (ready small 0) [])).busAnswer = .fail ∧
    1 ≤ ([0x01] : List Byte).length ∧ ([0x01] : List Byte).length ≤ 16 ∧
    1 ≤ (List.replicate 16 (0x01 : Byte)).length ∧ (List.replicate 16 (0x01 : Byte)).length ≤ 16 := by decide

theorem witness_EmitCmdFollowsTheGrouping :
    (inLock (ready small 0) []).lockHeld = true ∧ (inLock (ready smallPerByte 0) []).lockHeld = true ∧
    ([0xAF] : List Byte).length = 1 ∧ ([0xA8, 0x3F] : List Byte).length = 2 := by decide

theorem witness_ControllerCommandSendsItsBytes :
    (inLock (ready small 0) []).lockHeld = true ∧ (inLock (ready smallPerByte 0) []).lockHeld = true := by decide

theorem witness_WaitAndResetLine : 1 ≤ 1 ∧ (ready smallReset 0).cfg.hasReset = true := by decide

/-- Each clause at its boundary: lengths 0, 1, 2, 3, 16 and 17. -/
theorem witness_PreconditionsAreRefused :
    (inLock (ready small 0) []).lockHeld = true ∧ (ready small 0).lockHeld = false ∧
    (ready small 0).cfg.hasReset = false ∧ 1 ≤ ([0xAE] : List Byte).length ∧
    ([0xAE] : List Byte).length = 1 ∧ ([0xA8, 0x3F] : List Byte).length = 2 ∧
    ([] : List Byte).length = 0 ∧ 2 < ([0, 0, 0] : List Byte).length ∧
    (List.replicate 16 (0 : Byte)).length ≤ 16 ∧ 16 < (List.replicate 17 (0 : Byte)).length := by decide

/-- A group whose body makes one write: the state has the group pending, one denied try, and the answers `w`. -/
def groupPending (w : List BusResult) : State :=
  { script [false, true] w (ready small 0) with
    busy := true, seq := [.op (.withLock [.wait 1, .txCmd [0xAE], .wait 2]), .complete] }

theorem witness_LockGroupRunsToItsEnd :
    (groupPending [.ack]).lockHeld = false ∧
    (groupPending [.ack]).seq = .op (.withLock [.wait 1, .txCmd [0xAE], .wait 2]) :: [.complete] ∧
    [MicroOp.wait 1, .txCmd [0xAE], .wait 2].all (MicroOp.wellFormed small) = true ∧
    (groupPending [.ack]).env.lockAnswers = List.replicate 1 false ++ true :: [] ∧
    (groupPending [.ack]).env.busAnswers = List.replicate
      (writeCount ([MicroOp.wait 1, .txCmd [0xAE], .wait 2].flatMap (microEvents small))) .ack ++ [] := by decide

theorem witness_LockGroupStopsAtTheFirstFailure :
    (groupPending [.fail]).lockHeld = false ∧
    (groupPending [.fail]).env.lockAnswers = List.replicate 1 false ++ true :: [] ∧
    [MicroOp.wait 1, .txCmd [0xAE], .wait 2].flatMap (microEvents small) =
      [.wait 1] ++ .wr small.addr [0x00, 0xAE] .ack :: [.wait 2] ∧
    (groupPending [.fail]).env.busAnswers = List.replicate (writeCount [.wait 1]) .ack ++ .fail :: [] := by decide

theorem witness_BusFailureEndsTheOperation :
    (script [] [.fail] (inLock (ready small 0) [])).lockHeld = true ∧
    (script [] [.fail] (inLock (ready small 0) [])).busAnswer = .fail ∧
    1 ≤ ([0xAE] : List Byte).length ∧ 1 ≤ ([0x01] : List Byte).length ∧ ([0x01] : List Byte).length ≤ 16 ∧
    (List.replicate 16 (0x01 : Byte)).length ≤ 16 := by decide

/-! ### The invariant and whole operations -/

/-- Scripted answers change nothing that the invariant speaks of. -/
theorem script_invariant (locks : List Bool) (writes : List BusResult) {s : State} (h : Invariant s) :
    Invariant (script locks writes s) :=
  ⟨h.fbWf, h.busySeq, h.idleFree, h.seqFits, h.traceLock, h.traceWrites, h.readyFull, h.seqFull, h.initRuns, h.noReset⟩

/-- A block in READY with SHOW just written to `REQ` meets the invariant. -/
theorem show_invariant (locks : List Bool) (writes : List BusResult) :
    Invariant (script locks writes (requested 0x40000000 (ready small 0x5A))) :=
  script_invariant locks writes
    ⟨by decide, by decide, by decide, by decide, by decide, by decide, by decide, by decide, by decide, by decide⟩

/-- And so does a block after power-on reset with INIT just written to `REQ`. -/
theorem init_invariant (locks : List Bool) (writes : List BusResult) :
    Invariant (script locks writes (requested 0x10000000 (State.powerOn small))) :=
  script_invariant locks writes
    ⟨by decide, by decide, by decide, by decide, by decide, by decide, by decide, by decide, by decide, by decide⟩

/-- The same with a reset line. -/
theorem init_reset_invariant (locks : List Bool) (writes : List BusResult) :
    Invariant (script locks writes (requested 0x10000000 (State.powerOn smallReset))) :=
  script_invariant locks writes
    ⟨by decide, by decide, by decide, by decide, by decide, by decide, by decide, by decide, by decide, by decide⟩

theorem witness_ShowSendsTheFramebuffer :
    ∃ s : State, Invariant s ∧ s.life = .ready ∧ s.seq = [.fetch] ∧ s.req = 0x40000000#32 ∧
      s.fb.dump s.cfg.fbSize = .ok [0x5A, 0x5A, 0x5A, 0x5A] ∧
      s.env.lockAnswers = List.replicate 1 false ++ true :: [] ∧
      s.env.busAnswers = List.replicate (s.cfg.pages * (3 + ceilDiv s.cfg.width s.cfg.chunk)) .ack ++ [] :=
  ⟨_, show_invariant [false, true] [.ack, .ack, .ack, .ack], rfl, rfl, rfl, rfl, rfl, rfl⟩

/-- V-SHF-1: the second write fails. -/
theorem witness_ShowStopsAtAFailedWrite :
    ∃ s : State, Invariant s ∧ s.life = .ready ∧ s.seq = [.fetch] ∧ s.req = 0x40000000#32 ∧
      s.fb.dump s.cfg.fbSize = .ok [0x5A, 0x5A, 0x5A, 0x5A] ∧
      s.env.lockAnswers = List.replicate 0 false ++ true :: [] ∧
      flushWrites s.cfg [0x5A, 0x5A, 0x5A, 0x5A] =
        [[0x00, 0xB0]] ++ [0x00, 0x02] :: [[0x00, 0x10], [0x40, 0x5A, 0x5A, 0x5A, 0x5A]] ∧
      s.env.busAnswers = List.replicate [[(0x00 : Byte), 0xB0]].length .ack ++ .fail :: [] :=
  ⟨_, show_invariant [true] [.ack, .fail], rfl, rfl, rfl, rfl, rfl, by decide, rfl⟩

/-- With and without the reset line: V-INIT-1 and V-INIT-3. -/
theorem witness_InitBringsTheBlockUp :
    (∃ s : State, Invariant s ∧ s.life = .uninit ∧ s.seq = [.fetch] ∧ s.req = 0x10000000#32 ∧
      [1, 0].length = initLocks s.cfg ∧ s.env.lockAnswers = grantsAfter [1, 0] ++ [] ∧
      s.env.busAnswers = List.replicate (writeCount (initEvents s.cfg)) .ack ++ []) ∧
    (∃ s : State, Invariant s ∧ s.life = .uninit ∧ s.seq = [.fetch] ∧ s.req = 0x10000000#32 ∧
      [0, 1, 0].length = initLocks s.cfg ∧ s.env.lockAnswers = grantsAfter [0, 1, 0] ++ [] ∧
      s.env.busAnswers = List.replicate (writeCount (initEvents s.cfg)) .ack ++ []) :=
  ⟨⟨_, init_invariant [false, true, true] (List.replicate 19 .ack), rfl, rfl, rfl, by decide, by decide, by decide⟩,
    ⟨_, init_reset_invariant [true, false, true, true] (List.replicate 19 .ack), rfl, rfl, rfl, by decide, by decide,
      by decide⟩⟩

/-- V-INF-1: the third write fails. -/
theorem witness_InitFailsInTheBringup :
    ∃ (s : State) (post : List (List Byte)), Invariant s ∧ s.life = .uninit ∧ s.seq = [.fetch] ∧
      s.req = 0x10000000#32 ∧ [1].length + 1 = initLocks s.cfg ∧ s.env.lockAnswers = grantsAfter [1] ++ [] ∧
      bringupWrites s.cfg = [[0x00, 0xAE], [0x00, 0xD5, 0x80]] ++ [0x00, 0xA8, 0x07] :: post ∧
      s.env.busAnswers = List.replicate [[(0x00 : Byte), 0xAE], [0x00, 0xD5, 0x80]].length .ack ++ .fail :: [] :=
  ⟨_, (bringupWrites small).drop 3, init_invariant [false, true] [.ack, .ack, .fail], rfl, rfl, rfl, by decide, by decide,
    by decide, rfl⟩

/-- V-INF-2, without the reset line: the flush's second write fails. -/
theorem witness_InitFailsInTheFlush :
    ∃ (s : State) (post : List (List Byte)), Invariant s ∧ s.life = .uninit ∧ s.seq = [.fetch] ∧
      s.req = 0x10000000#32 ∧ [0, 0].length = initLocks s.cfg ∧ s.env.lockAnswers = grantsAfter [0, 0] ++ [] ∧
      flushWrites s.cfg (List.replicate s.cfg.fbSize 0x00) = [[0x00, 0xB0]] ++ [0x00, 0x02] :: post ∧
      s.env.busAnswers =
        List.replicate ((bringupWrites s.cfg).length + [[(0x00 : Byte), 0xB0]].length) .ack ++ .fail :: [] :=
  ⟨_, (flushWrites small (List.replicate 4 0x00)).drop 2,
    init_invariant [true, true] (List.replicate 16 .ack ++ [.fail]), rfl, rfl, rfl, by decide, by decide, by decide,
    by decide⟩

theorem witness_StepKeepsInv :
    ∃ s t : State, Invariant s ∧ step s = .next t ∧ s.life ≠ t.life :=
  ⟨_, _, init_invariant [] [], rfl, by decide⟩

/-- With a pseudo-operation in the host's program whose font has its default glyph. -/
theorem witness_InvStatesNeverStop :
    ∃ s : State, Invariant s ∧ hostOk s = true ∧ s.host = [.call (.lookup (.rowMajor [(' ', oneCell)]) 'A')] :=
  ⟨{ ready small 0x5A with host := [.call (.lookup (.rowMajor [(' ', oneCell)]) 'A')] },
    ⟨by decide, by decide, by decide, by decide, by decide, by decide, by decide, by decide, by decide, by decide⟩,
    by decide, rfl⟩

theorem witness_StateChangesOnlyAsTheRuleSays :
    ∃ s t : State, Invariant s ∧ step s = .next t ∧ s.life = .uninit ∧ t.life = .initializing :=
  ⟨_, _, init_invariant [] [], rfl, rfl, rfl⟩

theorem witness_ConfigurationNeverChanges : ∃ s t : State, step s = .next t := ⟨State.reset, _, rfl⟩

/-- A step that adds a bus write. -/
theorem witness_EveryStepAddsAtMostOneFormedEvent :
    ∃ s t : State, step s = .next t ∧ t.trace = s.trace ++ [.wr 0x3C [0x00, 0xAE] .ack] :=
  ⟨script [] [.ack] (inLock (ready small 0) [.op .displayOff]), _, rfl, by decide⟩

/-- A step that responds. -/
theorem witness_ResponsesAreFormed :
    ∃ s t : State, step s = .next t ∧ t.responses = s.responses ++ [0x20000000] :=
  ⟨requested 0x40000000 (State.powerOn small), _, rfl, by decide⟩

theorem witness_NoOperationEndsHoldingTheLock :
    ∃ s t : State, Invariant s ∧ step s = .next t ∧ t.busy = false ∧ s.seq = [.fetch] ∧ decodeWord s.req = .rdstat :=
  ⟨requested 0x60000000 (ready small 0x5A), _,
    ⟨by decide, by decide, by decide, by decide, by decide, by decide, by decide, by decide, by decide, by decide⟩,
    rfl, by decide, rfl, by decide⟩

theorem witness_PseudoOperationsLeaveTheBlockAlone :
    ∃ t : State, exec (PseudoOp.centerX 30).toInstr State.reset = .next t ∧ t ≠ State.reset := ⟨_, rfl, by decide⟩

/-- A pair in range, at the end of the range. -/
theorem witness_GlyphOnlySetsBits :
    (ready small 0).life = .ready ∧ Memory.full (ready small 0).cfg.fbSize (ready small 0).fb = true ∧
    inRange (ready small 0).cfg 3 7 = true := by decide

theorem witness_DrawTextAdvancesTheCursor :
    (Font.rowMajor [(' ', oneCell)]).hasDefault = true ∧ (Font.colMajor [('?', columnGlyph)]).hasDefault = true := by decide

theorem witness_LookupFallsBackToTheDefault :
    [(' ', oneCell)].lookup ' ' = some oneCell ∧ [('?', oneCell)].lookup ' ' = none ∧
    [('?', columnGlyph)].lookup '?' = some columnGlyph ∧ [(' ', columnGlyph)].lookup '?' = none := by decide

/-- Both clauses meet at w = WIDTH, where both say 0. -/
theorem witness_CenterXIsTheFloorOfHalf :
    State.reset.cfg.width ≤ 128 ∧ 128 ≤ State.reset.cfg.width ∧ 0 ≤ State.reset.cfg.width := by decide

theorem witness_ProbeLockTriesUntilTimeout :
    (script [true] [] (ready small 0)).lockAnswer = true ∧ (script [true] [] (ready small 0)).lockHeld = false ∧
    (∃ s : State, s.lockAnswer = false ∧ s.lockDrawn.clockAnswer 1000 = true) ∧
    (∃ s : State, s.lockHeld = true ∧ s.lockDrawn.clockAnswer 1000 = false) :=
  ⟨by decide, by decide,
    ⟨{ ready small 0 with env := { Env.fresh with lockAnswers := [false], clockAnswers := [true] } }, rfl, rfl⟩,
    ⟨{ inLock (ready small 0) [] with env := { Env.fresh with lockAnswers := [true], clockAnswers := [false] } }, rfl, rfl⟩⟩

end Sys2Proof.Tests
end

section
/-! Proofs. How the trace grows (R11, R12, R124): at most one event in a step, and a bus write among them only in its
form and while the lock is held. -/

namespace Sys2Proof.Machine

/-- From `s` to `t` the trace gains nothing, or one event at its end; a bus write has the form of R124 and is made while
the lock is held. -/
def AddsAtMostOneFormedEvent (s t : State) : Prop :=
  t.trace = s.trace ∨
  ∃ e, t.trace = s.trace ++ [e] ∧ writeFormed s.cfg.addr e = true ∧
    (∀ a bytes r, e = .wr a bytes r → s.lockHeld = true)

/-- A bus write's event is in the trace whatever the bus answered, also when it raises BusFail. -/
theorem transact_trace (control : Byte) (payload : List Byte) (s : State) :
    (transact control payload s).trace = s.trace ++ [.wr s.cfg.addr (control :: payload) s.busAnswer] := by
  rcases transact_cases control payload s with ⟨ha, ht⟩ | ⟨ha, ht⟩
  · rw [ht, ha]; rfl
  · rw [ht, ha]; rfl

/-- A grant or release of the lock, a bus write, a wait and a use of the reset line add one event each; a denied lock try
and every other effect add none. -/
theorem exec_addsAtMostOneFormedEvent {i : Instr} {s t : State} (h : exec i s = .next t) :
    AddsAtMostOneFormedEvent s t := by
  cases exec_effect h with
  | granted | released | wait | rstDirOut | rstSet => exact .inr ⟨_, rfl, rfl, nofun⟩
  | write control payload later _ hl hf =>
    exact .inr ⟨_, transact_trace control payload _, writeFormed_result _ _ _ _ hf, fun _ _ _ _ => hl⟩
  | respond | setpix | fill | init | shows | denied | withLock | pseudo => exact .inl rfl

/-- Taking an item off the sequencer or off the host's program adds nothing by itself, so what a step adds is what the
instruction it runs adds. -/
theorem step_addsAtMostOneFormedEvent {s t : State} (h : step s = .next t) : AddsAtMostOneFormedEvent s t := by
  cases step_effect h with
  | expands _ _ _ _ he | fetches _ _ he | runs _ _ _ he =>
    -- the instruction starts with its item taken off `s`, which has the trace, lock and configuration of `s`
    have hadds := exec_addsAtMostOneFormedEvent he
    exact hadds
  | completes rest =>
    obtain ⟨-, -, -, -, -, -, -, -, htrace, -⟩ := completeOp_frame { s with seq := rest }
    exact .inl htrace
  | catches rest =>
    obtain ⟨-, -, -, -, -, -, -, -, htrace, -⟩ := catchBusFail_frame { s with seq := rest }
    exact .inl htrace
  | waits | presents | zeroes | flushes => exact .inl rfl

/-- Settles O49, from what each instruction adds to the trace. -/
theorem everyStepAddsAtMostOneFormedEvent : Obligations.EveryStepAddsAtMostOneFormedEvent :=
  fun _ _ => step_addsAtMostOneFormedEvent

end Sys2Proof.Machine
end

section
/-! Proofs. The state after power-on reset (R35, R280), the host's write of `REQ` (R30, R294), and the configuration, which
no step changes (R23). -/

namespace Sys2Proof.Machine

/-- Settles O7: `State.powerOn` names each of these values. -/
theorem powerOnResetValues : Obligations.PowerOnResetValues :=
  ⟨fun _ => ⟨rfl, rfl, rfl, rfl, rfl, rfl, rfl, rfl, rfl⟩, rfl⟩

theorem hostWrite_idle {w : Word} {s : State} (h : s.busy = false) :
    hostWrite w s = .next { s with req := w, busy := true, seq := [.fetch] } := by
  simp [hostWrite, h]

theorem hostWrite_busy {w : Word} {s : State} (h : s.busy = true) : hostWrite w s = .refused .requestWhileBusy := by
  simp [hostWrite, h]

/-- With the sequencer idle and an operation word next in the host's program, a step is the host's write of that word. -/
theorem step_word {w : Word} {rest : List HostItem} {s : State} (hs : s.seq = []) (hh : s.host = .word w :: rest) :
    step s = hostWrite w { s with host := rest } := by
  simp [step, advance, hostTurn, hs, hh]

/-- Settles O8, by the two cases of `BUSY` in the host's write. -/
theorem hostWriteOnlyWhileIdle : Obligations.HostWriteOnlyWhileIdle := by
  intro w s
  refine ⟨hostWrite_idle, hostWrite_busy, fun rest hb hs hh => ?_⟩
  rw [step_word hs hh]
  exact hostWrite_idle hb

theorem exec_cfg {i : Instr} {s t : State} (h : exec i s = .next t) : t.cfg = s.cfg := by
  cases exec_effect h with
  | write control payload later =>
    obtain ⟨hcfg, -⟩ := transact_frame control payload (s.push (later.map fun a => .op (.txCmd [a])))
    exact hcfg
  | _ => rfl

theorem step_cfg {s t : State} (h : step s = .next t) : t.cfg = s.cfg := by
  cases step_effect h with
  | expands _ _ _ _ he | fetches _ _ he | runs _ _ _ he => exact (exec_cfg he :)
  | completes rest => exact (completeOp_frame { s with seq := rest }).1
  | catches rest => exact (catchBusFail_frame { s with seq := rest }).1
  | waits | presents | zeroes | flushes => rfl

/-- Settles O48, since neither an instruction nor an item's end writes the configuration. -/
theorem configurationNeverChanges : Obligations.ConfigurationNeverChanges := fun _ _ => step_cfg

end Sys2Proof.Machine
end

section
/-! Proofs. What a step can run in a state that meets the invariant, by kind of instruction: a host operation from the
fetch, a micro-operation of a lock group, or a pseudo-operation of the host. -/

namespace Sys2Proof.Machine

/-! ## The three kinds of instruction -/

theorem hostOp_decodeWord (w : Word) : hostOp (decodeWord w) = true := by
  unfold decodeWord
  split_ifs <;> rfl

theorem inGroup_decodeWord (w : Word) : inGroup (decodeWord w) = false := by
  cases hg : inGroup (decodeWord w) with
  | false => rfl
  | true => exact absurd (hostOp_of_inGroup hg) (by simp [hostOp_decodeWord])

theorem hostOp_pseudo (p : PseudoOp) : hostOp p.toInstr = false := by cases p <;> rfl

theorem inGroup_pseudo (p : PseudoOp) : inGroup p.toInstr = false := by cases p <;> rfl

/-- A host operation ends with its response, its lock and `STATE` as they were, or is an accepted INIT or SHOW. -/
theorem exec_hostOp_next {i : Instr} {s t : State} (hi : hostOp i = true) (h : exec i s = .next t) :
    (t.seq = [] ∧ t.busy = false ∧ t.lockHeld = s.lockHeld ∧ t.life = s.life) ∨
    t = { s with life := .initializing, seq := initProgram s.cfg } ∨
    (s.life = .ready ∧ t = { s with seq := showProgram }) := by
  cases exec_effect h with
  | respond | setpix | fill => exact .inl ⟨rfl, rfl, rfl, rfl⟩
  | init => exact .inr (.inl rfl)
  | shows hr => exact .inr (.inr ⟨hr, rfl⟩)
  | granted | denied | released | wait | rstDirOut | rstSet | withLock => cases hi
  | write _ _ _ hg => rw [hostOp_of_inGroup hg] at hi; cases hi
  | pseudo p hp => rw [hp, hostOp_pseudo] at hi; cases hi

/-- A lock try takes the lock, or leaves itself pending. -/
theorem exec_lockAcquire_next {s t : State} (h : exec .lockAcquire s = .next t) :
    t = { s.lockDrawn with lockHeld := true }.emit .acq ∨ t = s.lockDrawn.push [.op .lockAcquire] := by
  simp only [exec, execLockAcquire] at h
  split_ifs at h <;> cases h
  · exact .inl rfl
  · exact .inr rfl

theorem exec_lockRelease_next {s t : State} (h : exec .lockRelease s = .next t) :
    t = { s with lockHeld := false }.emit .rel := by
  simp only [exec, execLockRelease] at h
  split_ifs at h
  cases h
  rfl

/-- A micro-operation of a lock group leaves the lock, `STATE` and the framebuffer alone; it goes on with what was pending,
maybe after more command bytes of its own, or it raises BusFail. -/
theorem exec_inGroup_next {i : Instr} {s t : State} (hi : inGroup i = true) (h : exec i s = .next t) :
    t.life = s.life ∧ t.lockHeld = s.lockHeld ∧ t.fb = s.fb ∧ t.busy = s.busy ∧
    ((∃ later : List Byte, t.seq = later.map (fun a => .op (.txCmd [a])) ++ s.seq) ∨
      t.seq = [.op .lockRelease, .catchFail]) := by
  cases exec_effect h with
  | write control payload later =>
    rcases transact_cases control payload (s.push (later.map fun a => .op (.txCmd [a]))) with ⟨-, ht⟩ | ⟨-, ht⟩
    · rw [ht]; exact ⟨rfl, rfl, rfl, rfl, .inl ⟨later, rfl⟩⟩
    · rw [ht]; exact ⟨rfl, rfl, rfl, rfl, .inr rfl⟩
  | wait | rstDirOut | rstSet => exact ⟨rfl, rfl, rfl, rfl, .inl ⟨[], rfl⟩⟩
  | respond _ _ hh => rw [hostOp_of_inGroup hi] at hh; cases hh
  | pseudo p hp => rw [hp, inGroup_pseudo] at hi; cases hi
  | setpix | fill | init | shows | granted | denied | released | withLock => cases hi

/-- A pseudo-operation changes only the host's program, the host's value and the agents' answers (R230). -/
theorem exec_pseudo_next {p : PseudoOp} {s t : State} (h : exec p.toInstr s = .next t) :
    t = { s with host := t.host, hostValue := t.hostValue, env := t.env } := by
  generalize hi : p.toInstr = i at h
  cases exec_effect h with
  | pseudo => rfl
  | respond _ _ hh => rw [← hi, hostOp_pseudo] at hh; cases hh
  | write _ _ _ hg => rw [← hi, inGroup_pseudo] at hg; cases hg
  | _ => cases p <;> cases hi

end Sys2Proof.Machine
end

section
/-! Proofs. Every step keeps the invariant. The invariant is taken in two parts: `BlockInv` speaks of the framebuffer, the
trace, `STATE` and the reset line, and `PendingInv` of the micro-steps still to come. -/

namespace Sys2Proof.Machine

/-! ## The two parts of the invariant -/

/-- The part of the invariant that does not speak of the pending micro-steps. -/
structure BlockInv (s : State) : Prop where
  fbWf : Memory.wf s.cfg.fbSize s.fb = true
  traceLock : lockScan false s.trace = some s.lockHeld
  traceWrites : s.trace.all (writeFormed s.cfg.addr) = true
  readyFull : s.life = .ready → Memory.full s.cfg.fbSize s.fb = true
  noReset : s.cfg.hasReset = false → s.rstDriven = false ∧ s.rstLevel = false

/-- The part of the invariant that speaks of the pending micro-steps. -/
structure PendingInv (s : State) : Prop where
  busySeq : s.busy = !s.seq.isEmpty
  idleFree : s.seq = [] → s.lockHeld = false
  seqFits : s.seq ≠ [] → seqOk s.cfg s.lockHeld s.seq = true
  seqFull : needsFull s.seq = true → Memory.full s.cfg.fbSize s.fb = true
  initRuns : s.life = .initializing → s.seq ≠ [] ∧ SeqItem.fetch ∉ s.seq

theorem invariant_iff (s : State) : Invariant s ↔ BlockInv s ∧ PendingInv s where
  mp h := ⟨⟨h.fbWf, h.traceLock, h.traceWrites, h.readyFull, h.noReset⟩,
    ⟨h.busySeq, h.idleFree, h.seqFits, h.seqFull, h.initRuns⟩⟩
  mpr := fun ⟨hb, hp⟩ => ⟨hb.fbWf, hp.busySeq, hp.idleFree, hp.seqFits, hb.traceLock, hb.traceWrites, hb.readyFull,
    hp.seqFull, hp.initRuns, hb.noReset⟩

/-- With a micro-step pending, the pending list fits the lock. -/
theorem Invariant.seqOk_cons {s : State} {item : SeqItem} {rest : List SeqItem} (h : Invariant s)
    (hs : s.seq = item :: rest) : seqOk s.cfg s.lockHeld (item :: rest) = true :=
  hs ▸ h.seqFits (by simp [hs])

/-- The fetch is the only pending micro-step, the lock is free, and INIT is not running. -/
theorem Invariant.of_fetch {s : State} {rest : List SeqItem} (h : Invariant s) (hs : s.seq = .fetch :: rest) :
    rest = [] ∧ s.lockHeld = false ∧ s.life ≠ .initializing := by
  obtain ⟨hrest, hfree⟩ := seqOk_fetch.1 (h.seqOk_cons hs)
  exact ⟨hrest, hfree, fun hl => (h.initRuns hl).2 (by simp [hs])⟩

/-- While the block is idle INIT is not running. -/
theorem Invariant.not_initializing_of_idle {s : State} (h : Invariant s) (hs : s.seq = []) : s.life ≠ .initializing :=
  fun hl => (h.initRuns hl).1 hs

/-! ## The block -/

section Block
variable {s t : State}

/-- `BlockInv` does not read the host port, the sequencer, the host and the agents' answers. -/
theorem BlockInv.frame (h : BlockInv s)
    (ht : t = { s with busy := t.busy, req := t.req, resp := t.resp, seq := t.seq, responses := t.responses,
                       host := t.host, hostValue := t.hostValue, env := t.env }) : BlockInv t := by
  rw [ht]
  exact ⟨h.fbWf, h.traceLock, h.traceWrites, h.readyFull, h.noReset⟩

/-- An event that fits the lock, with the lock as it is after the event. -/
theorem BlockInv.emit (h : BlockInv s) {e : Event} {held : Bool} (hscan : lockScan s.lockHeld [e] = some held)
    (hform : writeFormed s.cfg.addr e = true) : BlockInv ({ s with lockHeld := held }.emit e) where
  fbWf := h.fbWf
  traceLock := (lockScan_emit h.traceLock e).trans hscan
  traceWrites := by simp only [State.emit_trace, State.emit_cfg, List.all_append, h.traceWrites]; simpa using hform
  readyFull := h.readyFull
  noReset := h.noReset

/-- The reset line may be used where there is one (R27). -/
theorem BlockInv.drive (h : BlockInv s) (hr : s.cfg.hasReset = true) (driven level : Bool) :
    BlockInv { s with rstDriven := driven, rstLevel := level } :=
  ⟨h.fbWf, h.traceLock, h.traceWrites, h.readyFull, fun hn => absurd (hn.symm.trans hr) Bool.false_ne_true⟩

theorem BlockInv.fillFb (h : BlockInv s) (v : Byte) : BlockInv (s.fillFb v) :=
  ⟨Memory.wf_filled .., h.traceLock, h.traceWrites, fun _ => Memory.full_filled .., h.noReset⟩

theorem BlockInv.put (h : BlockInv s) {index : Nat} (hi : index < s.cfg.fbSize) (b : Byte) :
    BlockInv { s with fb := s.fb.put index b } :=
  ⟨Memory.wf_put h.fbWf hi, h.traceLock, h.traceWrites, fun hl => Memory.full_put (h.readyFull hl), h.noReset⟩

/-- READY may be entered once every framebuffer byte has been written. -/
theorem BlockInv.setLife (h : BlockInv s) {l : Life} (hl : l = .ready → Memory.full s.cfg.fbSize s.fb = true) :
    BlockInv { s with life := l } :=
  ⟨h.fbWf, h.traceLock, h.traceWrites, hl, h.noReset⟩

theorem BlockInv.transact (h : BlockInv s) {control : Byte} {payload : List Byte} (hheld : s.lockHeld = true)
    (hform : writeFormed s.cfg.addr (.wr s.cfg.addr (control :: payload) .ack) = true) :
    BlockInv (transact control payload s) := by
  have hdrawn : BlockInv s.busDrawn := h.frame rfl
  have hscan (r : BusResult) : lockScan s.busDrawn.lockHeld [.wr s.cfg.addr (control :: payload) r] =
      some s.busDrawn.lockHeld := by simp [lockScan, hheld]
  rcases transact_cases control payload s with ⟨-, ht⟩ | ⟨-, ht⟩
  · rw [ht]; exact hdrawn.emit (hscan _) hform
  · rw [ht]; exact (hdrawn.emit (hscan _) (writeFormed_result _ _ _ _ hform)).frame rfl

theorem BlockInv.completeOp (h : BlockInv s) (hfull : Memory.full s.cfg.fbSize s.fb = true) : BlockInv s.completeOp := by
  unfold State.completeOp
  cases s.life with
  | initializing => exact (h.setLife fun _ => hfull).frame rfl
  | uninit | ready | failed => exact h.frame rfl

theorem BlockInv.catchBusFail (h : BlockInv s) : BlockInv s.catchBusFail := by
  unfold State.catchBusFail
  cases s.life with
  | initializing => exact (h.setLife (l := .failed) nofun).frame rfl
  | uninit | ready | failed => exact h.frame rfl

/-- An instruction keeps the block's part, given that the micro-operations of a lock group run with the lock held. -/
theorem exec_keeps_blockInv {i : Instr} (h : BlockInv s) (hheld : inGroup i = true → s.lockHeld = true)
    (he : exec i s = .next t) : BlockInv t := by
  cases exec_effect he with
  | respond | shows | denied | withLock | pseudo => exact h.frame rfl
  | setpix index b _ hi => exact (h.put hi b).frame rfl
  | fill => exact (h.fillFb _).frame rfl
  | init => exact (h.setLife (l := .initializing) nofun).frame rfl
  | granted hfree => exact (h.frame (t := s.lockDrawn) rfl).emit (by simp [lockScan, hfree]) rfl
  | released hl => exact h.emit (by simp [lockScan, hl]) rfl
  | write control payload later _ hl hf => exact (h.frame (t := s.push _) rfl).transact hl hf
  | wait => exact h.emit (by simp [lockScan, hheld rfl]) rfl
  | rstDirOut hr => exact (h.drive hr true s.rstLevel).emit (by simp [lockScan, hheld rfl]) rfl
  | @rstSet level _ hr =>
    exact (h.drive hr s.rstDriven level).emit (e := .gset level) (by simp [lockScan, hheld rfl]) rfl

/-- A pending micro-operation of a lock group finds the lock held. -/
theorem Invariant.held_of_inGroup {i : Instr} {rest : List SeqItem} (h : Invariant s) (hs : s.seq = .op i :: rest)
    (hi : inGroup i = true) : s.lockHeld = true :=
  ((seqOk_inGroup hi).1 (h.seqOk_cons hs)).1

theorem step_keeps_blockInv (h : Invariant s) (hst : step s = .next t) : BlockInv t := by
  obtain ⟨hb, -⟩ := (invariant_iff s).1 h
  have taken (rest : List SeqItem) : BlockInv { s with seq := rest } := hb.frame rfl
  cases step_effect hst with
  | waits => exact hb
  | presents | flushes => exact hb.frame rfl
  | expands p rest _ _ he =>
    exact exec_keeps_blockInv (hb.frame rfl) (fun hi => by rw [inGroup_pseudo] at hi; cases hi) he
  | fetches rest _ he =>
    exact exec_keeps_blockInv (taken rest) (fun hi => by rw [inGroup_decodeWord] at hi; cases hi) he
  | runs i rest hs he => exact exec_keeps_blockInv (taken rest) (fun hi => h.held_of_inGroup hs hi) he
  | zeroes rest => exact (taken rest).fillFb _
  | completes rest hs => exact (taken rest).completeOp (h.seqFull (by rw [hs]; rfl))
  | catches rest => exact (taken rest).catchBusFail

end Block

/-! ## The pending micro-steps -/

section Pending
variable {s t : State} {item : SeqItem} {rest : List SeqItem}

/-- The end of an operation. -/
theorem PendingInv.of_idle (hs : s.seq = []) (hb : s.busy = false) (hf : s.lockHeld = false)
    (hl : s.life ≠ .initializing) : PendingInv s where
  busySeq := by simp [hs, hb]
  idleFree _ := hf
  seqFits hne := absurd hs hne
  seqFull hn := by simp [hs, needsFull] at hn
  initRuns hi := absurd hi hl

/-- An operation that goes on. -/
theorem PendingInv.of_running (hb : s.busy = true) (hok : seqOk s.cfg s.lockHeld s.seq = true)
    (hfull : needsFull s.seq = true → Memory.full s.cfg.fbSize s.fb = true)
    (hi : s.life = .initializing → SeqItem.fetch ∉ s.seq) : PendingInv s := by
  have hne : s.seq ≠ [] := fun hs => by simp [hs, seqOk] at hok
  exact ⟨by simp [hb, hne], fun hs => absurd hs hne, fun _ => hok, hfull, fun hl => ⟨hne, hi hl⟩⟩

/-- `BUSY` is 1 while a micro-step is pending. -/
theorem Invariant.busy_of_cons (h : Invariant s) (hs : s.seq = item :: rest) : s.busy = true := by
  rw [h.busySeq, hs]; rfl

/-- A micro-step goes on with what was pending after it, maybe with instructions `ops` in front. -/
theorem PendingInv.of_ops (h : Invariant s) (hs : s.seq = item :: rest) (hbusy : t.busy = s.busy)
    (hlife : t.life = s.life) (ops : List Instr) (ht : t.seq = ops.map .op ++ rest)
    (hok : seqOk t.cfg t.lockHeld (ops.map .op ++ rest) = true)
    (hfull : needsFull rest = true → Memory.full t.cfg.fbSize t.fb = true) : PendingInv t := by
  refine .of_running (hbusy.trans (h.busy_of_cons hs)) (ht ▸ hok) ?_ ?_
  · rw [ht, needsFull_ops]; exact hfull
  · intro hl
    obtain ⟨-, hfetch⟩ := h.initRuns (hlife ▸ hl)
    rw [hs, List.mem_cons, not_or] at hfetch
    simp [ht, hfetch.2]

/-- The micro-steps of a lock group are all instructions. -/
theorem lockGroup_eq_map (body : List MicroOp) :
    lockGroup body = (Instr.lockAcquire :: body.map MicroOp.toInstr ++ [Instr.lockRelease]).map .op := by
  simp [lockGroup, Function.comp_def]

/-- A lock group in front of what was pending, started with the lock free. -/
theorem PendingInv.of_lockGroup (h : Invariant s) (hs : s.seq = item :: rest) {body : List MicroOp}
    (hfree : s.lockHeld = false) (hbody : body.all (MicroOp.wellFormed s.cfg) = true)
    (hrest : seqOk s.cfg false rest = true) (hfull : needsFull rest = true → Memory.full s.cfg.fbSize s.fb = true) :
    PendingInv ({ s with seq := rest }.push (lockGroup body)) := by
  refine .of_ops h hs rfl rfl _ (congrArg (· ++ rest) (lockGroup_eq_map body)) ?_ hfull
  rw [← lockGroup_eq_map]
  simpa [hfree, seqOk_lockGroup body hbody] using hrest

/-- A fetched operation ends, or starts the program of INIT or of SHOW. -/
theorem fetch_keeps_pendingInv (h : Invariant s) (hs : s.seq = .fetch :: rest)
    (he : exec (decodeWord s.req) { s with seq := rest } = .next t) : PendingInv t := by
  obtain ⟨-, hfree, hni⟩ := h.of_fetch hs
  rcases exec_hostOp_next (hostOp_decodeWord _) he with ⟨hseq, hbusy, hlock, hlife⟩ | rfl | ⟨hready, rfl⟩
  · exact .of_idle hseq hbusy (hlock.trans hfree) (fun hl => hni (hlife ▸ hl))
  · refine .of_running (h.busy_of_cons hs) ?_ ?_ ?_
    · simpa [hfree] using seqOk_initProgram s.cfg
    · simp [needsFull_initProgram]
    · simp [initProgram]
  · refine .of_running (h.busy_of_cons hs) ?_ (fun _ => h.readyFull hready) ?_
    · simpa [hfree] using seqOk_showProgram s.cfg
    · simp [showProgram]

/-- A micro-operation goes on with what fits the lock it leaves, or raises BusFail, which leaves the release of the lock
and the catch. -/
theorem op_keeps_pendingInv {i : Instr} (h : Invariant s) (hs : s.seq = .op i :: rest)
    (he : exec i { s with seq := rest } = .next t) : PendingInv t := by
  have hfull : needsFull rest = true → Memory.full s.cfg.fbSize s.fb = true := fun hn => h.seqFull (by rw [hs]; exact hn)
  rcases seqOk_op (h.seqOk_cons hs) with
    ⟨rfl, hfree, hok⟩ | ⟨rfl, hheld, hok⟩ | ⟨body, rfl, hfree, hbody, hok⟩ | ⟨hg, hheld, -, hok⟩
  · rcases exec_lockAcquire_next he with rfl | rfl
    · exact .of_ops h hs rfl rfl [] rfl hok hfull
    · have hok' : seqOk s.cfg s.lockHeld (.op .lockAcquire :: rest) = true := seqOk_lockAcquire.2 ⟨hfree, hok⟩
      exact .of_ops h hs rfl rfl [.lockAcquire] rfl hok' hfull
  · rw [exec_lockRelease_next he]
    exact .of_ops h hs rfl rfl [] rfl hok hfull
  · cases he
    exact .of_lockGroup h hs hfree hbody hok hfull
  · have hcfg : t.cfg = s.cfg := (exec_cfg he :)
    obtain ⟨hlife, hlock, hfb, hbusy, ⟨later, hseq⟩ | hseq⟩ := exec_inGroup_next hg he
    · refine .of_ops h hs hbusy hlife (later.map fun a => .txCmd [a]) (by simp [hseq]) ?_ (by rwa [hcfg, hfb])
      rw [hcfg, hlock, hheld, List.map_map]
      exact seqOk_later later hok
    · refine .of_running (hbusy.trans (h.busy_of_cons hs)) ?_ ?_ ?_
      · simp [hseq, hlock, hheld, seqOk]
      · simp [hseq, needsFull]
      · simp [hseq]

/-- The flush is a well-formed lock group, whatever bytes it reads. -/
theorem flush_keeps_pendingInv (h : Invariant s) (hs : s.seq = .flush :: rest) {bytes : List Byte}
    (hd : s.fb.dump s.cfg.fbSize = .ok bytes) :
    PendingInv ({ s with seq := rest }.push (lockGroup (flushBody s.cfg bytes))) := by
  obtain ⟨hfree, hok⟩ := seqOk_flush.1 (h.seqOk_cons hs)
  have hbody := flushBody_wellFormed s.cfg (Memory.dump_length hd)
  exact .of_lockGroup h hs hfree hbody hok fun _ => h.seqFull (by rw [hs]; rfl)

/-- `STATE` after an operation's end or catch, which takes it out of INITIALIZING. -/
theorem Life.ended_ne_initializing (l : Life) {l' : Life} (h : l' ≠ .initializing) :
    (if l = .initializing then l' else l) ≠ .initializing := by
  split_ifs with hl
  · exact h
  · exact hl

theorem PendingInv.completeOp (hf : s.lockHeld = false) : PendingInv s.completeOp := by
  obtain ⟨-, hlock, -, -, -, hbusy, hseq, -, -, -, -, -, -, -, hlife⟩ := completeOp_frame s
  exact .of_idle hseq hbusy (hlock.trans hf) (hlife ▸ Life.ended_ne_initializing s.life nofun)

theorem PendingInv.catchBusFail (hf : s.lockHeld = false) : PendingInv s.catchBusFail := by
  obtain ⟨-, hlock, -, -, -, hbusy, hseq, -, -, -, -, -, -, -, hlife⟩ := catchBusFail_frame s
  exact .of_idle hseq hbusy (hlock.trans hf) (hlife ▸ Life.ended_ne_initializing s.life nofun)

theorem step_keeps_pendingInv (h : Invariant s) (hst : step s = .next t) : PendingInv t := by
  obtain ⟨-, hp⟩ := (invariant_iff s).1 h
  cases step_effect hst with
  | waits => exact hp
  | presents w rest hs =>
    have hni := h.not_initializing_of_idle hs
    exact .of_running rfl (by simp [seqOk, h.idleFree hs]) nofun (fun hl => absurd hl hni)
  | expands p rest _ _ he =>
    rw [exec_pseudo_next he]
    exact ⟨hp.busySeq, hp.idleFree, hp.seqFits, hp.seqFull, hp.initRuns⟩
  | fetches rest hs he => exact fetch_keeps_pendingInv h hs he
  | runs i rest hs he => exact op_keeps_pendingInv h hs he
  | zeroes rest hs =>
    obtain ⟨hfree, hok⟩ := seqOk_zeroFill.1 (h.seqOk_cons hs)
    exact .of_ops h hs rfl rfl [] rfl (by simpa [hfree] using hok) fun _ => Memory.full_filled ..
  | flushes rest bytes hs hd => exact flush_keeps_pendingInv h hs hd
  | completes rest hs => exact .completeOp (seqOk_complete.1 (h.seqOk_cons hs)).2
  | catches rest hs => exact .catchBusFail (seqOk_catchFail.1 (h.seqOk_cons hs)).2

end Pending

/-! ## The two statements -/

theorem step_keeps_invariant {s t : State} (h : Invariant s) (hst : step s = .next t) : Invariant t :=
  (invariant_iff t).2 ⟨step_keeps_blockInv h hst, step_keeps_pendingInv h hst⟩

/-- Settles O45, from the invariant's two parts. -/
theorem stepKeepsInv : Obligations.StepKeepsInv := fun _ _ => step_keeps_invariant

/-- Settles O44: the block is idle, its trace is empty, and its framebuffer lists nothing. -/
theorem powerOnResetMeetsInv : Obligations.PowerOnResetMeetsInv := fun _ =>
  (invariant_iff _).2 ⟨⟨rfl, rfl, rfl, nofun, fun _ => ⟨rfl, rfl⟩⟩, .of_idle rfl rfl rfl nofun⟩

end Sys2Proof.Machine
end

section
/-! Proofs. `STATE` changes only as its transition rule says (R25, R290), and no operation ends with the lock held, so that
RDSTAT never shows it (R26, R31). -/

namespace Sys2Proof.Machine

/-- Settles O47: of the instructions only an accepted INIT writes `STATE`, and it can only come from the fetch; besides it
the operation's end and its catch write `STATE`, and both stand alone in the pending list. -/
theorem stateChangesOnlyAsTheRuleSays : Obligations.StateChangesOnlyAsTheRuleSays := by
  intro s t h hst
  cases step_effect hst with
  | waits | presents | zeroes | flushes => exact .inl rfl
  | expands p rest _ _ he => exact .inl (by rw [exec_pseudo_next he])
  | fetches rest hs he =>
    obtain ⟨rfl, -, -⟩ := h.of_fetch hs
    rcases exec_life he with hlife | ⟨hinit, hun, hlife, -⟩
    · exact .inl hlife
    · exact .inr (.inl ⟨hun, hlife, hs, hinit⟩)
  | runs i rest hs he =>
    rcases exec_life he with hlife | ⟨rfl, -⟩
    · exact .inl hlife
    · -- INIT is not a micro-operation that can be pending
      have hok := h.seqOk_cons hs
      simp [seqOk, inGroup] at hok
  | completes rest hs =>
    obtain ⟨rfl, -⟩ := seqOk_complete.1 (h.seqOk_cons hs)
    obtain ⟨-, -, -, -, -, -, -, -, -, -, -, -, hresp, -, hlife⟩ := completeOp_frame { s with seq := [] }
    split_ifs at hlife with hl
    · exact .inr (.inr (.inl ⟨hl, hlife, hs, hresp⟩))
    · exact .inl hlife
  | catches rest hs =>
    obtain ⟨rfl, -⟩ := seqOk_catchFail.1 (h.seqOk_cons hs)
    obtain ⟨-, -, -, -, -, -, -, -, -, -, -, -, hresp, -, hlife⟩ := catchBusFail_frame { s with seq := [] }
    split_ifs at hlife with hl
    · exact .inr (.inr (.inr ⟨hl, hlife, hs, hresp⟩))
    · exact .inl hlife

/-- An idle block has `BUSY` 0 exactly because nothing is pending, so its lock is free. -/
theorem Invariant.free_of_not_busy {s : State} (h : Invariant s) (hb : s.busy = false) : s.lockHeld = false :=
  h.idleFree (by simpa [hb] using h.busySeq)

/-- The byte of a response word stands in its low bits (R90). -/
theorem responseWord_getLsbD (code : RespCode) (data : Byte) {i : Nat} (hi : i < 8) :
    (responseWord code data).getLsbD i = data.getLsbD i :=
  BitVec.getLsbD_append.trans (if_pos hi)

theorem responseWord_extractLsb' (code : RespCode) (data : Byte) :
    (responseWord code data).extractLsb' 0 2 = data.extractLsb' 0 2 := by
  ext i hi
  simpa using responseWord_getLsbD code data (i := i) (by omega)

/-- STATUS shows `LOCK_HELD` in bit 2 (R29). -/
theorem status_lockHeld (s : State) : s.status.getLsbD 2 = s.lockHeld := by
  unfold State.status
  cases s.life <;> cases s.lockHeld <;> cases s.rstDriven <;> cases s.rstLevel <;> rfl

/-- STATUS shows the number of `STATE` in bits [1:0] (R29). -/
theorem status_life (s : State) : s.status.extractLsb' 0 2 = s.life.code := by
  unfold State.status
  cases s.life <;> cases s.lockHeld <;> cases s.rstDriven <;> cases s.rstLevel <;> rfl

theorem Life.code_ne_one {l : Life} (h : l ≠ .initializing) : l.code ≠ 1#2 := by
  cases l with
  | initializing => exact absurd rfl h
  | uninit | ready | failed => decide

/-- Settles O51: with the invariant kept, `BUSY` 0 means an idle block, whose lock is free; and where RDSTAT is fetched the
lock is free and INIT is not running, which is what its STATUS byte shows. -/
theorem noOperationEndsHoldingTheLock : Obligations.NoOperationEndsHoldingTheLock := by
  intro s t h hst
  refine ⟨(step_keeps_invariant h hst).free_of_not_busy, fun hs hd => ?_⟩
  obtain ⟨-, hfree, hni⟩ := h.of_fetch hs
  have ht : t.resp = responseWord .ok s.status := by
    rw [step_cons hs, runItem, hd] at hst
    cases hst
    rfl
  rw [ht, responseWord_getLsbD _ _ (by decide), responseWord_extractLsb', status_lockHeld, status_life]
  exact ⟨hfree, Life.code_ne_one hni⟩

end Sys2Proof.Machine
end

section
/-! Proofs. SETPIX and FILL, an equation for each case of R183 and R186, and both run twice leave the framebuffer as run
once (R59, R184 (d)). -/

namespace Sys2Proof.Machine
variable {s t u : State} {x y : BitVec 12} {v : Bool}

/-! ## SETPIX -/

/-- Outside READY, SETPIX only answers NOT_READY (R251). -/
theorem exec_setpix_notReady (hl : s.life ≠ .ready) : exec (.setpix x y v) s = .next (s.respond .notReady 0) := by
  cases h : s.life with
  | ready => exact absurd h hl
  | uninit | initializing | failed => simp [exec, execSetpix, h]

/-- A pair out of range is clipped without trace (R183). -/
theorem exec_setpix_outOfRange (hl : s.life = .ready) (hm : mapXY s.cfg x.toInt y.toInt = none) :
    exec (.setpix x y v) s = .next (s.respond .ok 0) := by
  simp [exec, execSetpix, hl, hm]

/-- All that SETPIX can do when it does not fault. -/
theorem exec_setpix_cases (h : exec (.setpix x y v) s = .next t) :
    (s.life ≠ .ready ∧ t = s.respond .notReady 0) ∨
    (s.life = .ready ∧ mapXY s.cfg x.toInt y.toInt = none ∧ t = s.respond .ok 0) ∨
    (∃ index bit b, s.life = .ready ∧ mapXY s.cfg x.toInt y.toInt = some (index, bit) ∧ s.readFb index = .ok b ∧
      t = { s with fb := s.fb.put index (bitWriteByte b bit v) }.respond .ok 0) := by
  by_cases hl : s.life = .ready
  · cases hm : mapXY s.cfg x.toInt y.toInt with
    | none =>
      cases h.symm.trans (exec_setpix_outOfRange hl hm)
      exact .inr (.inl ⟨hl, rfl, rfl⟩)
    | some p =>
      obtain ⟨index, bit⟩ := p
      cases hb : s.readFb index with
      | error f => simp [exec, execSetpix, hl, hm, bitWrite, hb, Except.map, outcomeOf] at h
      | ok b =>
        cases h.symm.trans (exec_setpix_inRange hl hm hb)
        exact .inr (.inr ⟨index, bit, b, hl, rfl, hb, rfl⟩)
  · cases h.symm.trans (exec_setpix_notReady hl)
    exact .inl ⟨hl, rfl⟩

/-- Setting or clearing a bit that already has the value leaves the byte (R182). -/
theorem bitWriteByte_idem (b : Byte) (bit : Nat) (v : Bool) :
    bitWriteByte (bitWriteByte b bit v) bit v = bitWriteByte b bit v := by
  cases v with
  | false => exact (BitVec.and_assoc ..).trans (congrArg (b &&& ·) (BitVec.and_self ..))
  | true => exact (BitVec.or_assoc ..).trans (congrArg (b ||| ·) (BitVec.or_self ..))

/-- The second run takes the branch of the first: a dropped pair is dropped again, and a written byte is read back and
written as it is. -/
theorem exec_setpix_idem (h : exec (.setpix x y v) s = .next t) (h' : exec (.setpix x y v) t = .next u) :
    u.fb = t.fb := by
  rcases exec_setpix_cases h with ⟨hl, rfl⟩ | ⟨hl, hm, rfl⟩ | ⟨index, bit, b, hl, hm, hb, rfl⟩
  · cases h'.symm.trans (exec_setpix_notReady hl)
    rfl
  · cases h'.symm.trans (exec_setpix_outOfRange hl hm)
    rfl
  · obtain ⟨hi, -⟩ := Memory.read_ok hb
    have written : (s.fb.put index (bitWriteByte b bit v)).read s.cfg.fbSize index = .ok (bitWriteByte b bit v) :=
      Memory.read_put_self s.fb _ hi
    cases h'.symm.trans (exec_setpix_inRange hl hm written)
    simp [Memory.put_put, bitWriteByte_idem]

/-! ## FILL -/

/-- Outside READY, FILL only answers NOT_READY (R251). -/
theorem exec_fill_notReady (hl : s.life ≠ .ready) : exec (.fill v) s = .next (s.respond .notReady 0) := by
  cases h : s.life with
  | ready => exact absurd h hl
  | uninit | initializing | failed => simp [exec, execFill, h]

/-- FILL in READY, in one equation (R186). -/
theorem exec_fill_ready (hl : s.life = .ready) :
    exec (.fill v) s = .next ((s.fillFb (if v then 0xFF else 0x00)).respond .ok 0) := by
  simp [exec, execFill, hl]

/-- What FILL writes depends on `v` and the configuration alone, not on the framebuffer it overwrites. -/
theorem exec_fill_idem (h : exec (.fill v) s = .next t) (h' : exec (.fill v) t = .next u) : u.fb = t.fb := by
  by_cases hl : s.life = .ready
  · cases h.symm.trans (exec_fill_ready hl)
    cases h'.symm.trans (exec_fill_ready hl)
    rfl
  · cases h.symm.trans (exec_fill_notReady hl)
    cases h'.symm.trans (exec_fill_notReady hl)
    rfl

/-- Settles O15, for each of the two operations. -/
theorem setpixAndFillAreIdempotent : Obligations.SetpixAndFillAreIdempotent := by
  rintro s t u i (⟨x, y, v, rfl⟩ | ⟨v, rfl⟩) h h'
  · exact exec_setpix_idem h h'
  · exact exec_fill_idem h h'

end Sys2Proof.Machine
end

section
/-! Proofs. Decoding and encoding agree in both directions, for operation words (R82 to R88), bus transactions (R92) and
controller commands (R94 to R96). -/

namespace Sys2Proof

/-! ## Operation words -/

/-- R88 in the decoder's terms: a word is illegal exactly when it matches none of the six rows of R82. -/
theorem wordIllegal_iff (w : Word) : wordIllegal w = true ↔
    ¬(opcField w = 0x1 ∧ formatZ w) ∧ ¬(opcField w = 0x2 ∧ formatP w) ∧ ¬(opcField w = 0x3 ∧ formatF w) ∧
    ¬(opcField w = 0x4 ∧ formatZ w) ∧ ¬(opcField w = 0x5 ∧ formatI w) ∧ ¬(opcField w = 0x6 ∧ formatZ w) := by
  simp only [wordIllegal, opcField, formatZ, formatP, formatF, formatI, ← BitVec.toNat_inj]
  have hlt := (w.extractLsb' 28 4).isLt
  generalize (w.extractLsb' 28 4).toNat = opc at *
  interval_cases opc <;> simp

theorem decodeWord_of_wordIllegal {w : Word} (h : wordIllegal w = true) : decodeWord w = .illegal w := by
  obtain ⟨hinit, hsetpix, hfill, hshow, hrdfb, hrdstat⟩ := (wordIllegal_iff w).1 h
  simp only [decodeWord, hinit, hsetpix, hfill, hshow, hrdfb, hrdstat, if_false]

theorem decodeWord_wordF (v : Bool) : decodeWord (wordF v) = .fill v := by
  cases v <;> rfl

theorem decodeWord_wordI (index : BitVec 16) : decodeWord (wordI index) = .rdfb index := by
  obtain ⟨hopc, hformat, hindex⟩ := fields_wordI index
  simp [decodeWord, hopc, hformat, hindex]

section Fields
variable {w : Word}

theorem ofBool_vField : BitVec.ofBool (vField w) = w.extractLsb' 27 1 := by
  ext i hi
  obtain rfl : i = 0 := by omega
  simp [vField]

/-- A word of format Z is made of its operation code (R83). -/
theorem wordZ_opcField (hz : formatZ w = true) : wordZ (opcField w) = w := by
  have hz : w.extractLsb' 0 28 = 0#28 := beq_iff_eq.1 hz
  rw [wordZ, ← hz]
  exact BitVec.extractLsb'_append_extractLsb'

/-- A word of format P is made of its fields (R84). -/
theorem wordP_fields (hopc : opcField w = 0x2#4) (hp : formatP w = true) :
    wordP (xField w) (yField w) (vField w) = w := by
  have hp : w.extractLsb' 24 3 = 0#3 := beq_iff_eq.1 hp
  rw [wordP, ← hopc, ← hp, ofBool_vField, opcField, yField, xField]
  iterate 4 rw [BitVec.extractLsb'_append_extractLsb'_eq_extractLsb' (by decide)]
  exact BitVec.extractLsb'_eq_self

/-- A word of format F is made of its fields (R85). -/
theorem wordF_vField (hopc : opcField w = 0x3#4) (hf : formatF w = true) : wordF (vField w) = w := by
  have hf : w.extractLsb' 0 27 = 0#27 := beq_iff_eq.1 hf
  rw [wordF, ← hopc, ← hf, ofBool_vField, opcField]
  iterate 2 rw [BitVec.extractLsb'_append_extractLsb'_eq_extractLsb' (by decide)]
  exact BitVec.extractLsb'_eq_self

/-- A word of format I is made of its fields (R86). -/
theorem wordI_indexField (hopc : opcField w = 0x5#4) (hi : formatI w = true) : wordI (indexField w) = w := by
  have hi : w.extractLsb' 16 12 = 0#12 := beq_iff_eq.1 hi
  rw [wordI, ← hopc, ← hi, opcField, indexField]
  iterate 2 rw [BitVec.extractLsb'_append_extractLsb'_eq_extractLsb' (by decide)]
  exact BitVec.extractLsb'_eq_self

end Fields

/-- What an operation word decodes to is encodable, and encodes to that word. -/
theorem encode_decodeWord (w : Word) :
    (decodeWord w).encodable = true ∧ encode (decodeWord w) = some (.opWord w) := by
  unfold decodeWord
  split_ifs with hinit hsetpix hfill hshow hrdfb hrdstat
  · exact ⟨rfl, by rw [encode, ← hinit.1, wordZ_opcField hinit.2]⟩
  · exact ⟨rfl, by rw [encode, wordP_fields hsetpix.1 hsetpix.2]⟩
  · exact ⟨rfl, by rw [encode, wordF_vField hfill.1 hfill.2]⟩
  · exact ⟨rfl, by rw [encode, ← hshow.1, wordZ_opcField hshow.2]⟩
  · exact ⟨rfl, by rw [encode, wordI_indexField hrdfb.1 hrdfb.2]⟩
  · exact ⟨rfl, by rw [encode, ← hrdstat.1, wordZ_opcField hrdstat.2]⟩
  · exact ⟨(wordIllegal_iff w).2 ⟨hinit, hsetpix, hfill, hshow, hrdfb, hrdstat⟩, rfl⟩

/-! ## Bus transactions -/

/-- All that a bus transaction can decode to. -/
theorem decodeTransaction_eq_ok {bytes : List Byte} {i : Instr} (h : decodeTransaction bytes = .ok i) :
    (∃ cmd, commandBytesOk cmd = true ∧ i = .ctrlCmd cmd ∧ bytes = 0x00 :: cmd) ∨
    (∃ chunk, chunkOk chunk = true ∧ i = .ctrlData chunk ∧ bytes = 0x40 :: chunk) := by
  cases bytes with
  | nil => cases h
  | cons control payload =>
    rw [decodeTransaction] at h
    split_ifs at h with hcmd hok hdata hok
    · subst control; cases h; exact .inl ⟨payload, hok, rfl, rfl⟩
    · subst control; cases h; exact .inr ⟨payload, hok, rfl, rfl⟩

/-! ## Controller commands -/

theorem decodeCommand_bytes (k : Command) : decodeCommand k.bytes = .ok k := by
  have h := decodeStream_bytes k []
  rw [List.append_nil] at h
  rw [decodeCommand, h]
  rfl

theorem encode_command (k : Command) : encode k.toInstr = some (.command k.bytes) := by
  cases k <;> rfl

theorem encodable_command (k : Command) : k.toInstr.encodable = true := by
  cases k <;> rfl

theorem decode_command_bytes (k : Command) : decode (.command k.bytes) = .ok k.toInstr := by
  rw [decode, decodeCommand_bytes]
  rfl

/-- An opcode byte without arguments is the whole of its command, which the 256 bytes show. -/
theorem bytes_of_commandOfOpcode : ∀ b, ∀ k ∈ commandOfOpcode b, k.bytes = [b] := by
  decide

theorem bytes_of_commandOfOpcodeArg {b a : Byte} {k : Command} (h : commandOfOpcodeArg b a = some k) :
    k.bytes = [b, a] := by
  unfold commandOfOpcodeArg at h
  split_ifs at h <;> cases h <;> subst b <;> rfl

theorem exists_of_map_eq_ok {ε α β : Type} {x : Except ε α} {f : α → β} {y : β} (h : x.map f = .ok y) :
    ∃ a, x = .ok a ∧ f a = y := by
  cases x with
  | error e => cases h
  | ok a => exact ⟨a, rfl, by cases h; rfl⟩

/-- A stream that is read is the bytes of the commands it is read as (R96). -/
theorem bytes_of_decodeStream {bytes : List Byte} {ks : List Command} (h : decodeStream bytes = .ok ks) :
    ks.flatMap Command.bytes = bytes := by
  induction bytes using decodeStream.induct generalizing ks with
  | case1 => cases h; rfl
  | case2 b k hk =>
    simp only [decodeStream, hk] at h
    cases h
    simp [bytes_of_commandOfOpcode b k hk]
  | case3 b hk | case4 b hk =>
    simp only [decodeStream, hk] at h
    split_ifs at h
  | case5 b a rest k hk ih =>
    simp only [decodeStream, hk] at h
    obtain ⟨ks, hks, rfl⟩ := exists_of_map_eq_ok h
    simp [bytes_of_commandOfOpcode b k hk, ih hks]
  | case6 b a rest hk k ha ih =>
    simp only [decodeStream, hk, ha] at h
    obtain ⟨ks, hks, rfl⟩ := exists_of_map_eq_ok h
    simp [bytes_of_commandOfOpcodeArg ha, ih hks]
  | case7 b a rest hk ha => simp [decodeStream, hk, ha] at h

theorem bytes_of_decodeCommand {bytes : List Byte} {k : Command} (h : decodeCommand bytes = .ok k) :
    k.bytes = bytes := by
  rw [decodeCommand] at h
  split at h
  next => cases h
  next => cases h
  next k' hk => cases h; simpa using bytes_of_decodeStream hk
  next => cases h

/-! ## The two round trips -/

/-- Settles O2, by the kind of the instruction's encoding: the fields of a word are the operands, the control byte of a
transaction tells its format, and a command at the head of a stream is read as itself. -/
theorem decodeOfEncodeIsIdentity : Obligations.DecodeOfEncodeIsIdentity := by
  intro i e hi he
  cases i with
  | init | showFrame | rdstat => cases he; rfl
  | setpix x y v => cases he; exact congrArg Except.ok (decodeWord_wordP x y v)
  | fill v => cases he; exact congrArg Except.ok (decodeWord_wordF v)
  | rdfb index => cases he; exact congrArg Except.ok (decodeWord_wordI index)
  | illegal w => cases he; exact congrArg Except.ok (decodeWord_of_wordIllegal hi)
  | ctrlCmd cmd => cases he; exact if_pos hi
  | ctrlData chunk => cases he; exact if_pos hi
  | lockAcquire | lockRelease | txCmd | txData | emitCmd | wait | rstDirOut | rstSet | withLock => cases he
  | drawGlyphR | drawGlyphC | drawText | lookup | centerX | probeLock => cases he
  | _ => cases he; exact decode_command_bytes _

/-- Settles O3, by the kind of encoding. -/
theorem encodeOfDecodeIsIdentity : Obligations.EncodeOfDecodeIsIdentity := by
  intro e i h
  cases e with
  | opWord w => cases h; exact encode_decodeWord w
  | transaction bytes =>
    rcases decodeTransaction_eq_ok h with ⟨cmd, hok, rfl, rfl⟩ | ⟨chunk, hok, rfl, rfl⟩
    · exact ⟨hok, rfl⟩
    · exact ⟨hok, rfl⟩
  | command bytes =>
    obtain ⟨k, hk, rfl⟩ := exists_of_map_eq_ok h
    exact ⟨encodable_command k, by rw [encode_command, bytes_of_decodeCommand hk]⟩

/-- Settles O4, command by command from the head of the stream. -/
theorem commandStreamReadsBack : Obligations.CommandStreamReadsBack := by
  intro ks
  induction ks with
  | nil => rfl
  | cons k ks ih => rw [List.flatMap_cons, ← k.bytes_eq_sentBytes, decodeStream_bytes, ih]; rfl

end Sys2Proof
end

section
/-! Proofs. The assembler's operand check (R87, R98), and the sample words. -/

namespace Sys2Proof

theorem fitsS12_iff {n : Int} : fitsS12 n = true ↔ -2048 ≤ n ∧ n ≤ 2047 := by
  simp [fitsS12]

/-- A coordinate that fits its field is not changed by it (R87). -/
theorem toInt_ofInt_of_fitsS12 {n : Int} (h : fitsS12 n = true) : (BitVec.ofInt 12 n).toInt = n := by
  obtain ⟨hlo, hhi⟩ := fitsS12_iff.1 h
  exact BitVec.toInt_ofInt_eq_self (by decide) hlo (by omega)

theorem bitOperand_eq_some {v : Int} {b : Bool} :
    bitOperand v = some b ↔ (v = 0 ∧ b = false) ∨ (v = 1 ∧ b = true) := by
  unfold bitOperand
  split_ifs with h0 h1
  · simp [h0, eq_comm]
  · simp [h1, eq_comm]
  · simp [h0, h1]

/-- The words the assembler gives to SETPIX: of operands that fit, and with those operands as they are (R98). -/
theorem assemble_setpix_eq_some {x y v : Int} {w : Word} :
    assemble (.setpix x y v) = some w ↔
      (fitsS12 x = true ∧ fitsS12 y = true) ∧
      ∃ b, bitOperand v = some b ∧ wordP (BitVec.ofInt 12 x) (BitVec.ofInt 12 y) b = w := by
  simp [assemble]

/-- Settles O6, from the words the assembler gives. -/
theorem assemblerNeverWraps : Obligations.AssemblerNeverWraps := by
  intro x y v
  refine ⟨?_, fun w hw => ?_⟩
  · rw [Option.isSome_iff_exists]
    simp only [assemble_setpix_eq_some, fitsS12_iff, bitOperand_eq_some]
    constructor
    · rintro ⟨w, ⟨hx, hy⟩, b, hv | hv, -⟩
      · exact ⟨hx, hy, .inl hv.1⟩
      · exact ⟨hx, hy, .inr hv.1⟩
    · rintro ⟨hx, hy, hv | hv⟩
      · exact ⟨_, ⟨hx, hy⟩, false, .inl ⟨hv, rfl⟩, rfl⟩
      · exact ⟨_, ⟨hx, hy⟩, true, .inr ⟨hv, rfl⟩, rfl⟩
  · obtain ⟨⟨hx, hy⟩, b, hb, rfl⟩ := assemble_setpix_eq_some.1 hw
    refine ⟨_, _, b, decodeWord_wordP .., toInt_ofInt_of_fitsS12 hx, toInt_ofInt_of_fitsS12 hy, ?_⟩
    rcases bitOperand_eq_some.1 hb with ⟨rfl, rfl⟩ | ⟨rfl, rfl⟩ <;> decide

/-- Settles O1: the decoder evaluated on each sample. -/
theorem sampleWordsDecode : Obligations.SampleWordsDecode :=
  ⟨rfl, rfl, rfl, rfl, rfl, rfl, rfl, rfl, rfl, rfl, rfl, rfl⟩

end Sys2Proof
end

section
/-! Proofs. The response words that steps write (R90, R91). -/

namespace Sys2Proof.Machine

/-- The fields of a response word are its code, zeros and its data (R90). -/
theorem fields_responseWord (code : RespCode) (data : Byte) :
    (responseWord code data).extractLsb' 28 4 = code.code ∧ (responseWord code data).extractLsb' 8 20 = 0 ∧
    (responseWord code data).extractLsb' 0 8 = data := by
  unfold responseWord
  refine ⟨?_, ?_, ?_⟩
  · rw [BitVec.extractLsb'_append_eq_of_le (by decide), BitVec.extractLsb'_append_eq_of_le (by decide)]
    exact BitVec.extractLsb'_eq_self
  · rw [BitVec.extractLsb'_append_eq_of_le (by decide)]
    exact BitVec.extractLsb'_append_eq_right
  · exact BitVec.extractLsb'_append_eq_right

/-- The last response is a word of a produced code, with data 0 unless the code is OK; or there is no new response. -/
def RespondsAtMostOnce (s t : State) : Prop :=
  (t.responses = s.responses ∧ t.resp = s.resp) ∨
  ∃ code data, (code ≠ .ok → data = 0) ∧ t.resp = responseWord code data ∧
    t.responses = s.responses ++ [responseWord code data]

theorem RespCode.code_le (code : RespCode) : code.code.toNat ≤ 5 := by
  cases code <;> decide

theorem RespCode.ne_ok_of_code_ne_zero {code : RespCode} (h : code.code ≠ 0) : code ≠ .ok := by
  rintro rfl
  exact h rfl

theorem exec_respondsAtMostOnce {i : Instr} {s t : State} (h : exec i s = .next t) : RespondsAtMostOnce s t := by
  cases exec_effect h with
  | respond code data _ hdata => exact .inr ⟨code, data, hdata, rfl, rfl⟩
  | setpix | fill => exact .inr ⟨.ok, 0, fun _ => rfl, rfl, rfl⟩
  | write control payload later =>
    obtain ⟨-, -, -, -, -, -, -, -, hresp, hresponses, -⟩ :=
      transact_frame control payload (s.push (later.map fun a => .op (.txCmd [a])))
    exact .inl ⟨hresponses, hresp⟩
  | init | shows | granted | denied | released | wait | rstDirOut | rstSet | withLock | pseudo => exact .inl ⟨rfl, rfl⟩

theorem step_respondsAtMostOnce {s t : State} (h : step s = .next t) : RespondsAtMostOnce s t := by
  cases step_effect h with
  | expands _ _ _ _ he | fetches _ _ he | runs _ _ _ he => exact (exec_respondsAtMostOnce he :)
  | completes rest =>
    obtain ⟨-, -, -, -, -, -, -, -, -, -, -, -, hresp, hresponses, -⟩ := completeOp_frame { s with seq := rest }
    exact .inr ⟨.ok, 0, fun _ => rfl, hresp, hresponses⟩
  | catches rest =>
    obtain ⟨-, -, -, -, -, -, -, -, -, -, -, -, hresp, hresponses, -⟩ := catchBusFail_frame { s with seq := rest }
    exact .inr ⟨.busFail, 0, fun _ => rfl, hresp, hresponses⟩
  | waits | presents | zeroes | flushes => exact .inl ⟨rfl, rfl⟩

/-- Settles O50: every response a step writes is one word of a code and a byte. -/
theorem responsesAreFormed : Obligations.ResponsesAreFormed := by
  intro s t h
  refine (step_respondsAtMostOnce h).imp_right fun ⟨code, data, hdata, hresp, hresponses⟩ => ?_
  obtain ⟨hcode, hreserved, hlow⟩ := fields_responseWord code data
  rw [hresponses, hresp, hcode, hreserved, hlow]
  exact ⟨rfl, rfl, code.code_le, fun hne => hdata (RespCode.ne_ok_of_code_ne_zero hne)⟩

end Sys2Proof.Machine
end

section
/-! Proofs. A step is the decoded instruction's meaning (R30, R89, R230). -/

namespace Sys2Proof.Machine

/-- For an operation of the host port, being well formed does not depend on the configuration. -/
theorem wellFormed_of_hostOp {i : Instr} (h : hostOp i = true) (c : Cfg) : i.wellFormed c = i.encodable := by
  cases i with
  | init | setpix | fill | showFrame | rdfb | rdstat | illegal => rfl
  | _ => cases h

theorem decodeWord_wellFormed (w : Word) (c : Cfg) : (decodeWord w).wellFormed c = true :=
  (wellFormed_of_hostOp (hostOp_decodeWord w) c).trans (encode_decodeWord w).1

/-- With the sequencer idle and a pseudo-operation next in the host's program, a step runs it. -/
theorem step_call {p : PseudoOp} {rest : List HostItem} {s : State} (hs : s.seq = []) (hh : s.host = .call p :: rest) :
    step s = exec p.toInstr { s with host := rest } := by
  simp [step, advance, hostTurn, hs, hh]

/-- Settles O9, by the item that is next. -/
theorem stepRunsDecodedInstruction : Obligations.StepRunsDecodedInstruction := fun s =>
  ⟨fun _ hs => ⟨decodeWord_wellFormed s.req s.cfg, step_cons hs⟩, fun _ _ hs => step_cons hs, fun _ _ => step_call⟩

end Sys2Proof.Machine
end

section
/-! Proofs. What EMIT_CMD sends in its step, and what it leaves to do, and with it the 18 controller commands (R94,
R125). -/

namespace Sys2Proof.Machine
variable {c : List Byte} {s : State}

/-- One bus write in one equation (R122, R123, R255). -/
theorem transact_eq (control : Byte) (payload : List Byte) (s : State) :
    transact control payload s = { s with
      trace := s.trace ++ [.wr s.cfg.addr (control :: payload) s.busAnswer]
      env := s.busDrawn.env
      seq := match s.busAnswer with
        | .fail => [.op .lockRelease, .catchFail]
        | .ack => s.seq } := by
  rcases transact_cases control payload s with ⟨ha, ht⟩ | ⟨ha, ht⟩
  · rw [ht, ha]; rfl
  · rw [ht, ha]; rfl

/-- The command bytes of the transaction that EMIT_CMD makes in its own step (R125). -/
def emitFirst (f : CmdFraming) (c : List Byte) : List Byte :=
  match f with
  | .perCommand => c
  | .perByte => c.take 1

/-- The transactions that EMIT_CMD leaves to the next micro-steps (R125). -/
def emitLater (f : CmdFraming) (c : List Byte) : List SeqItem :=
  match f with
  | .perCommand => []
  | .perByte => (c.drop 1).map fun a => .op (.txCmd [a])

/-- EMIT_CMD of one or two bytes with the lock held, in one equation for both groupings. -/
theorem emitCommand_eq_transact (hl : s.lockHeld = true) (hc : (∃ b, c = [b]) ∨ ∃ b a, c = [b, a]) :
    emitCommand c s = .next (transact 0x00 (emitFirst s.cfg.framing c) (s.push (emitLater s.cfg.framing c))) := by
  rcases hc with ⟨b, rfl⟩ | ⟨b, a, rfl⟩
  · cases hf : s.cfg.framing with
    | perCommand | perByte => simp [emitCommand, emitFirst, emitLater, push_nil, sendTransaction_held hl]
  · cases hf : s.cfg.framing with
    | perCommand => simp [emitCommand, hf, emitFirst, emitLater, push_nil, sendTransaction_held hl]
    | perByte => simp [emitCommand, hf, emitFirst, emitLater, sendTransaction, hl]

/-- Settles O32: each command's meaning is EMIT_CMD of its one or two bytes. -/
theorem controllerCommandSendsItsBytes : Obligations.ControllerCommandSendsItsBytes := by
  intro k s hl
  refine ⟨k.bytes_eq_sentBytes, ?_⟩
  rw [exec_command, emitCommand_eq_transact hl (Command.bytes_shape k), transact_eq, k.bytes_eq_sentBytes]
  rfl

end Sys2Proof.Machine
end

section
/-! Proofs. The lock's two micro-operations (R120, R121): one try of LOCK_ACQUIRE, its tries until one is granted, and
the release. -/

namespace Sys2Proof.Machine
variable {s : State}

theorem exec_lockAcquire_granted (hl : s.lockHeld = false) (ha : s.lockAnswer = true) :
    exec .lockAcquire s = .next ({ s.lockDrawn with lockHeld := true }.emit .acq) := by
  simp [exec, execLockAcquire, hl, ha]

theorem exec_lockAcquire_denied (hl : s.lockHeld = false) (ha : s.lockAnswer = false) :
    exec .lockAcquire s = .next (s.lockDrawn.push [.op .lockAcquire]) := by
  simp [exec, execLockAcquire, hl, ha]

theorem exec_lockAcquire_held (hl : s.lockHeld = true) : exec .lockAcquire s = .refused .lockAlreadyHeld := by
  simp [exec, execLockAcquire, hl]

theorem exec_lockRelease_held (hl : s.lockHeld = true) :
    exec .lockRelease s = .next ({ s with lockHeld := false }.emit .rel) := by
  simp [exec, execLockRelease, hl]

theorem exec_lockRelease_free (hl : s.lockHeld = false) : exec .lockRelease s = .refused .lockNotHeld := by
  simp [exec, execLockRelease, hl]

/-- Settles O26, by the two answers of the arbiter. -/
theorem lockAcquireTriesOnce : Obligations.LockAcquireTriesOnce := fun _ hl =>
  ⟨exec_lockAcquire_granted hl, exec_lockAcquire_denied hl⟩

/-- Settles O28. -/
theorem lockReleaseFreesTheLock : Obligations.LockReleaseFreesTheLock := fun _ => exec_lockRelease_held

/-! ## Lock tries in a run -/

/-- The state after one denied try of a pending LOCK_ACQUIRE: everything but the arbiter's answers is as it was. -/
def State.deniedOnce (s : State) (left : List Bool) : State :=
  { s with env := { s.env with lockAnswers := left, lockDraws := s.env.lockDraws + 1 } }

/-- The state in which a pending LOCK_ACQUIRE has been granted after `k` denied tries. -/
def State.acquired (s : State) (k : Nat) (left : List Bool) (rest : List SeqItem) : State :=
  { s with
    lockHeld := true
    seq := rest
    trace := s.trace ++ [.acq]
    env := { s.env with lockAnswers := left, lockDraws := s.env.lockDraws + (k + 1) } }

theorem step_lockAcquire_denied {rest : List SeqItem} {left : List Bool} (hl : s.lockHeld = false)
    (hs : s.seq = .op .lockAcquire :: rest) (ha : s.env.lockAnswers = false :: left) :
    step s = .next (s.deniedOnce left) := by
  rw [step_cons hs]
  simp only [runItem]
  rw [exec_lockAcquire_denied (by exact hl) (lockAnswer_of_cons (by exact ha))]
  simp [State.push, State.lockDrawn, State.deniedOnce, ha, hs]

theorem step_lockAcquire_granted {rest : List SeqItem} {left : List Bool} (hl : s.lockHeld = false)
    (hs : s.seq = .op .lockAcquire :: rest) (ha : s.env.lockAnswers = true :: left) :
    step s = .next (s.acquired 0 left rest) := by
  rw [step_cons hs]
  simp only [runItem]
  rw [exec_lockAcquire_granted (by exact hl) (lockAnswer_of_cons (by exact ha))]
  simp [State.emit, State.lockDrawn, State.acquired, ha]

/-- Settles O27, by induction on the number of denied tries. -/
theorem lockAcquireRetriesUntilGranted : Obligations.LockAcquireRetriesUntilGranted := by
  intro s rest k left hl hs ha
  induction k generalizing s with
  | zero => exact run_succ (step_lockAcquire_granted hl hs ha)
  | succ k ih =>
    refine (run_succ (step_lockAcquire_denied hl hs ha)).trans ((ih (s.deniedOnce _) hl hs rfl).trans ?_)
    simp only [State.deniedOnce, Nat.add_assoc, Nat.add_comm 1]

end Sys2Proof.Machine
end

section
/-! Proofs. The bus micro-operations (R122, R123, R125), the waits and the reset line (R126, R127): what each does, and
where it is refused. -/

namespace Sys2Proof.Machine
variable {s : State} {cmd chunk c : List Byte}

/-! ## Transactions -/

theorem commandBytesOk_iff : commandBytesOk cmd = true ↔ 1 ≤ cmd.length := by
  cases cmd <;> simp [commandBytesOk]

theorem chunkOk_iff : chunkOk chunk = true ↔ 1 ≤ chunk.length ∧ chunk.length ≤ 16 := by
  simp [chunkOk]

theorem sendTransaction_free (control : Byte) (payload : List Byte) (hl : s.lockHeld = false) :
    sendTransaction control payload s = .refused .lockNotHeld := by
  simp [sendTransaction, hl]

theorem sendCommandBytes_eq (hc : 1 ≤ cmd.length) : sendCommandBytes cmd s = sendTransaction 0x00 cmd s :=
  if_pos (commandBytesOk_iff.2 hc)

theorem sendChunk_eq (hc : 1 ≤ chunk.length ∧ chunk.length ≤ 16) : sendChunk chunk s = sendTransaction 0x40 chunk s :=
  if_pos (chunkOk_iff.2 hc)

theorem sendChunk_outOfDomain (hc : chunk.length = 0 ∨ 16 < chunk.length) :
    sendChunk chunk s = .refused .operandOutOfDomain :=
  if_neg fun h => by have := chunkOk_iff.1 h; omega

/-- Both answers to a transaction with the lock held, each with its next state (R122, R123, R255). -/
theorem sendTransaction_answers (control : Byte) (payload : List Byte) (hl : s.lockHeld = true) :
    (s.busAnswer = .ack →
      sendTransaction control payload s = .next { s with
        trace := s.trace ++ [.wr s.cfg.addr (control :: payload) .ack], env := s.busDrawn.env }) ∧
    (s.busAnswer = .fail →
      sendTransaction control payload s = .next { s with
        trace := s.trace ++ [.wr s.cfg.addr (control :: payload) .fail], env := s.busDrawn.env,
        seq := [.op .lockRelease, .catchFail] }) := by
  rw [sendTransaction_held hl]
  exact ⟨fun ha => congrArg _ (transact_ack ha), fun ha => congrArg _ (transact_fail ha)⟩

/-- Settles O29: both instructions are the command transaction of their bytes. -/
theorem commandTransactionIsOneWrite : Obligations.CommandTransactionIsOneWrite := by
  intro i s cmd hi hl hc
  have hx : exec i s = sendTransaction 0x00 cmd s := by
    rcases hi with rfl | rfl <;> exact sendCommandBytes_eq hc
  rw [hx]
  exact sendTransaction_answers 0x00 cmd hl

/-- Settles O30: both instructions are the data transaction of their chunk. -/
theorem dataTransactionIsOneWrite : Obligations.DataTransactionIsOneWrite := by
  intro i s chunk hi hl hlo hhi
  have hx : exec i s = sendTransaction 0x40 chunk s := by
    rcases hi with rfl | rfl <;> exact sendChunk_eq ⟨hlo, hhi⟩
  rw [hx]
  exact sendTransaction_answers 0x40 chunk hl

/-! ## EMIT_CMD -/

theorem oneOrTwo_of_length (h : c.length = 1 ∨ c.length = 2) : (∃ b, c = [b]) ∨ ∃ b a, c = [b, a] :=
  h.imp List.length_eq_one_iff.1 List.length_eq_two.1

theorem emitCommand_free (hl : s.lockHeld = false) (hc : (∃ b, c = [b]) ∨ ∃ b a, c = [b, a]) :
    emitCommand c s = .refused .lockNotHeld := by
  rcases hc with ⟨b, rfl⟩ | ⟨b, a, rfl⟩
  · exact sendTransaction_free _ _ hl
  · simp only [emitCommand]
    cases s.cfg.framing with
    | perCommand => exact sendTransaction_free _ _ hl
    | perByte => exact sendTransaction_free _ _ hl

theorem emitCommand_outOfDomain (hc : c.length = 0 ∨ 2 < c.length) :
    emitCommand c s = .refused .operandOutOfDomain := by
  match c with
  | [] => rfl
  | [_] | [_, _] => simp at hc
  | _ :: _ :: _ :: _ => rfl

/-- Settles O31, from the first transaction of EMIT_CMD and what it leaves to do. -/
theorem emitCmdFollowsTheGrouping : Obligations.EmitCmdFollowsTheGrouping := by
  intro s c hl hc
  have hx : exec (.emitCmd c) s = emitCommand c s := rfl
  rw [hx, emitCommand_eq_transact hl (oneOrTwo_of_length hc), transact_eq]
  rfl

/-! ## Waits and the reset line -/

theorem exec_rstDirOut_line (h : s.cfg.hasReset = true) :
    exec .rstDirOut s = .next ({ s with rstDriven := true }.emit .gdir) := if_pos h

theorem exec_rstSet_line (h : s.cfg.hasReset = true) (l : Bool) :
    exec (.rstSet l) s = .next ({ s with rstLevel := l }.emit (.gset l)) := if_pos h

theorem exec_rstDirOut_noLine (h : s.cfg.hasReset = false) : exec .rstDirOut s = .refused .noResetLine :=
  if_neg (by simp [h])

theorem exec_rstSet_noLine (h : s.cfg.hasReset = false) (l : Bool) : exec (.rstSet l) s = .refused .noResetLine :=
  if_neg (by simp [h])

/-- Settles O33. -/
theorem waitAndResetLine : Obligations.WaitAndResetLine := fun _ =>
  ⟨fun _ hms => if_pos hms, fun h => ⟨exec_rstDirOut_line h, exec_rstSet_line h⟩⟩

/-- Settles O34, from the lock, the operand and the reset-line check of each micro-operation. -/
theorem preconditionsAreRefused : Obligations.PreconditionsAreRefused := by
  intro s
  refine ⟨exec_lockAcquire_held, fun hl => ⟨exec_lockRelease_free hl, ?_, ?_, ?_, ?_⟩, rfl, rfl, ?_, ?_, rfl, ?_⟩
  · intro cmd hc
    have hx : sendCommandBytes cmd s = .refused .lockNotHeld :=
      (sendCommandBytes_eq hc).trans (sendTransaction_free _ _ hl)
    exact ⟨hx, hx⟩
  · intro chunk hlo hhi
    have hx : sendChunk chunk s = .refused .lockNotHeld :=
      (sendChunk_eq ⟨hlo, hhi⟩).trans (sendTransaction_free _ _ hl)
    exact ⟨hx, hx⟩
  · exact fun c hc => emitCommand_free hl (oneOrTwo_of_length hc)
  · exact fun k => (exec_command k s).trans (emitCommand_free hl (Command.bytes_shape k))
  · exact fun chunk hc => ⟨sendChunk_outOfDomain hc, sendChunk_outOfDomain hc⟩
  · exact fun c hc => emitCommand_outOfDomain hc
  · exact fun h => ⟨exec_rstDirOut_noLine h, exec_rstSet_noLine h⟩

end Sys2Proof.Machine
end

section
/-! Proofs. Runs of a lock group (R128, R129): the whole group when every bus write answers ACK, and the group cut short
at its first failed write. -/

namespace Sys2Proof.Machine
variable {s : State} {body : List MicroOp} {rest : List SeqItem} {k : Nat} {lockLeft : List Bool}
  {busLeft : List BusResult}

/-! ## The body -/

/-- The micro-steps of a lock group's body. -/
def bodySteps (body : List MicroOp) : List SeqItem := body.map fun m => .op m.toInstr

theorem bodySteps_append_cons (done : List MicroOp) (m : MicroOp) (after : List MicroOp) :
    bodySteps (done ++ m :: after) = bodySteps done ++ .op m.toInstr :: bodySteps after := by
  simp [bodySteps]

theorem lockGroup_append (body : List MicroOp) (rest : List SeqItem) :
    lockGroup body ++ rest = .op .lockAcquire :: (bodySteps body ++ .op .lockRelease :: rest) := by
  simp [lockGroup, bodySteps]

/-- The state after the micro-operations `done` of a body have run, all their bus writes acknowledged. -/
def State.afterMicros (s : State) (done : List MicroOp) (rest : List SeqItem) (busLeft : List BusResult) : State :=
  { s with
    seq := rest
    trace := s.trace ++ done.flatMap (microEvents s.cfg)
    rstDriven := done.foldl drivenAfter s.rstDriven
    rstLevel := done.foldl levelAfter s.rstLevel
    env := { s.env with
      busAnswers := busLeft
      busDraws := s.env.busDraws + writeCount (done.flatMap (microEvents s.cfg)) } }

/-- A body whose bus writes are all acknowledged. -/
theorem reaches_body_ack (hs : s.seq = bodySteps body ++ rest) (hl : s.lockHeld = true)
    (hw : ∀ m ∈ body, m.wellFormed s.cfg = true)
    (hb : s.env.busAnswers = List.replicate (writeCount (body.flatMap (microEvents s.cfg))) .ack ++ busLeft) :
    Reaches s (s.afterMicros body rest busLeft) := by
  induction body generalizing s with
  | nil =>
    have hseq : s.seq = rest := hs
    have hbus : s.env.busAnswers = busLeft := hb
    subst hseq hbus
    simpa [State.afterMicros, writeCount] using Reaches.refl s
  | cons m body ih =>
    rw [List.forall_mem_cons] at hw
    rw [List.flatMap_cons, writeCount_append, List.replicate_add, List.append_assoc] at hb
    have hrest := ih (s := { s with
        seq := bodySteps body ++ rest
        trace := s.trace ++ microEvents s.cfg m
        rstDriven := drivenAfter s.rstDriven m
        rstLevel := levelAfter s.rstLevel m
        env := { s.env with
          busAnswers := List.replicate (writeCount (body.flatMap (microEvents s.cfg))) .ack ++ busLeft
          busDraws := s.env.busDraws + writeCount (microEvents s.cfg m) } }) rfl hl hw.2 rfl
    simp only [State.afterMicros, List.append_assoc, Nat.add_assoc] at hrest
    simp only [State.afterMicros, List.flatMap_cons, writeCount_append, List.foldl_cons]
    exact (reaches_micro_ack hs hl hw.1 hb).trans hrest

/-- An element of a concatenation of lists stands in one of them. -/
theorem exists_of_flatMap_eq_append_cons {α β : Type} {f : α → List β} {l : List α} {pre post : List β} {x : β}
    (h : l.flatMap f = pre ++ x :: post) :
    ∃ before a after p q, l = before ++ a :: after ∧ pre = before.flatMap f ++ p ∧ f a = p ++ x :: q := by
  induction l generalizing pre with
  | nil => simp at h
  | cons a l ih =>
    rw [List.flatMap_cons, List.append_eq_append_iff] at h
    -- `x` stands behind `f a`, in the concatenation of the later lists
    have inTail : ∀ {pre' : List β}, pre = f a ++ pre' → l.flatMap f = pre' ++ x :: post →
        ∃ before a' after p q, a :: l = before ++ a' :: after ∧ pre = before.flatMap f ++ p ∧ f a' = p ++ x :: q := by
      intro pre' hpre htail
      obtain ⟨before, a', after, p, q, rfl, rfl, hfa⟩ := ih htail
      exact ⟨a :: before, a', after, p, q, rfl, by simp [hpre], hfa⟩
    rcases h with ⟨pre', hpre, htail⟩ | ⟨q, hfa, hx⟩
    · exact inTail hpre htail
    · cases q with
      | nil => exact inTail (pre' := []) (by simpa using hfa.symm) hx.symm
      | cons y q =>
        obtain ⟨rfl, -⟩ := List.cons.inj hx
        exact ⟨[], a, l, pre, q, rfl, rfl, hfa⟩

/-- A body whose first failing write is the one after the events `pre`: the micro-operations `done` before it have
run. -/
theorem reaches_body_fail {pre post : List Event} {w : List Byte} (hs : s.seq = bodySteps body ++ rest)
    (hl : s.lockHeld = true) (hw : ∀ m ∈ body, m.wellFormed s.cfg = true)
    (hsp : body.flatMap (microEvents s.cfg) = pre ++ .wr s.cfg.addr w .ack :: post)
    (hb : s.env.busAnswers = List.replicate (writeCount pre) .ack ++ .fail :: busLeft) :
    ∃ done, done <+: body ∧ Reaches s { s with
      seq := [.op .lockRelease, .catchFail]
      trace := s.trace ++ (pre ++ [.wr s.cfg.addr w .fail])
      rstDriven := done.foldl drivenAfter s.rstDriven
      rstLevel := done.foldl levelAfter s.rstLevel
      env := { s.env with busAnswers := busLeft, busDraws := s.env.busDraws + (writeCount pre + 1) } } := by
  obtain ⟨done, m, after, p, q, rfl, rfl, hm⟩ := exists_of_flatMap_eq_append_cons hsp
  rw [writeCount_append, List.replicate_add, List.append_assoc] at hb
  rw [bodySteps_append_cons, List.append_assoc, List.cons_append] at hs
  have hdone := reaches_body_ack hs hl (fun m' hm' => hw m' (List.mem_append_left _ hm')) hb
  refine ⟨done, List.prefix_append _ _, hdone.trans ?_⟩
  have hfail := reaches_micro_fail (s := s.afterMicros done (.op m.toInstr :: (bodySteps after ++ rest))
    (List.replicate (writeCount p) .ack ++ .fail :: busLeft)) rfl hl (hw m (by simp)) hm rfl
  simpa only [State.afterMicros, writeCount_append, List.append_assoc, Nat.add_assoc] using hfail

/-! ## The group -/

theorem step_lockRelease (hl : s.lockHeld = true) (hs : s.seq = .op .lockRelease :: rest) :
    step s = .next { s with lockHeld := false, seq := rest, trace := s.trace ++ [.rel] } :=
  (step_cons hs).trans (exec_lockRelease_held (by exact hl))

/-- A lock group's start, up to the grant of the lock after `k` denied tries. -/
theorem reaches_lockGroup_held (hl : s.lockHeld = false) (hs : s.seq = lockGroup body ++ rest)
    (ha : s.env.lockAnswers = List.replicate k false ++ true :: lockLeft) :
    Reaches s (s.acquired k lockLeft (bodySteps body ++ .op .lockRelease :: rest)) :=
  ⟨k + 1, lockAcquireRetriesUntilGranted s _ k lockLeft hl (hs.trans (lockGroup_append body rest)) ha⟩

/-- A lock group whose bus writes are all acknowledged. -/
theorem reaches_lockGroup_ack (hl : s.lockHeld = false) (hs : s.seq = lockGroup body ++ rest)
    (hw : ∀ m ∈ body, m.wellFormed s.cfg = true)
    (ha : s.env.lockAnswers = List.replicate k false ++ true :: lockLeft)
    (hb : s.env.busAnswers = List.replicate (writeCount (body.flatMap (microEvents s.cfg))) .ack ++ busLeft) :
    Reaches s { s with
      seq := rest
      trace := s.trace ++ (.acq :: body.flatMap (microEvents s.cfg) ++ [.rel])
      rstDriven := body.foldl drivenAfter s.rstDriven
      rstLevel := body.foldl levelAfter s.rstLevel
      env := s.env.after (k + 1) lockLeft (writeCount (body.flatMap (microEvents s.cfg))) busLeft } := by
  have hheld := reaches_lockGroup_held hl hs ha
  have hbody := reaches_body_ack (s := s.acquired k lockLeft _) (rest := .op .lockRelease :: rest) rfl rfl hw hb
  refine hheld.trans (hbody.trans (.one ((step_lockRelease rfl rfl).trans ?_)))
  simp [State.afterMicros, State.acquired, Env.after, hl]

/-- A lock group whose first failing write is the one after the events `pre`. -/
theorem reaches_lockGroup_fail {pre post : List Event} {w : List Byte} (hl : s.lockHeld = false)
    (hs : s.seq = lockGroup body ++ rest) (hw : ∀ m ∈ body, m.wellFormed s.cfg = true)
    (ha : s.env.lockAnswers = List.replicate k false ++ true :: lockLeft)
    (hsp : body.flatMap (microEvents s.cfg) = pre ++ .wr s.cfg.addr w .ack :: post)
    (hb : s.env.busAnswers = List.replicate (writeCount pre) .ack ++ .fail :: busLeft) :
    ∃ done, done <+: body ∧ Reaches s { s with
      seq := [.catchFail]
      trace := s.trace ++ (.acq :: pre ++ [.wr s.cfg.addr w .fail, .rel])
      rstDriven := done.foldl drivenAfter s.rstDriven
      rstLevel := done.foldl levelAfter s.rstLevel
      env := s.env.after (k + 1) lockLeft (writeCount pre + 1) busLeft } := by
  have hheld := reaches_lockGroup_held hl hs ha
  obtain ⟨done, hdone, hfail⟩ :=
    reaches_body_fail (s := s.acquired k lockLeft _) (rest := .op .lockRelease :: rest) rfl rfl hw hsp hb
  refine ⟨done, hdone, hheld.trans (hfail.trans (.one ((step_lockRelease rfl rfl).trans ?_)))⟩
  simp [State.acquired, Env.after, hl]

/-! ## WITH_LOCK -/

theorem step_withLock (hs : s.seq = .op (.withLock body) :: rest) :
    step s = .next { s with seq := lockGroup body ++ rest } := step_cons hs

/-- Settles O35. -/
theorem withLockScopesItsBody : Obligations.WithLockScopesItsBody := by
  intro s body
  have hx : exec (.withLock body) s = .next (s.push (lockGroup body)) := rfl
  rw [hx, State.push, lockGroup_append]
  rfl

/-- Settles O36, from the run of the group that WITH_LOCK puts in front. -/
theorem lockGroupRunsToItsEnd : Obligations.LockGroupRunsToItsEnd := by
  intro s body rest k lockLeft busLeft hl hs hw ha hb
  have hgroup := reaches_lockGroup_ack (s := { s with seq := lockGroup body ++ rest }) hl rfl
    (List.all_eq_true.1 hw) ha hb
  exact ⟨_, .step (step_withLock hs) hgroup, rfl, hl, rfl, rfl, rfl, rfl, rfl, rfl, rfl, rfl, rfl, rfl, rfl⟩

/-- Settles O37, from the run of the group that WITH_LOCK puts in front. -/
theorem lockGroupStopsAtTheFirstFailure : Obligations.LockGroupStopsAtTheFirstFailure := by
  intro s body rest k lockLeft busLeft pre post w hl hs hw ha hsp hb
  obtain ⟨done, -, hgroup⟩ := reaches_lockGroup_fail (s := { s with seq := lockGroup body ++ rest }) hl rfl
    (List.all_eq_true.1 hw) ha hsp hb
  exact ⟨_, .step (step_withLock hs) hgroup, rfl, hl, rfl, rfl, rfl, rfl, rfl, rfl, rfl, rfl, rfl, rfl, rfl⟩

end Sys2Proof.Machine
end

section
/-! Proofs. The shape of a flush does not depend on the framebuffer's contents (R130, R215). -/

namespace Sys2Proof.Machine

/-- The data transactions of a page, their bytes blanked, depend on the number of the framebuffer's bytes alone. -/
theorem pageData_map_blankChunk {bytes bytes' : List Byte} (c : Cfg) (p : Nat) (h : bytes.length = bytes'.length) :
    (pageData c bytes p).map blankChunk = (pageData c bytes' p).map blankChunk := by
  simp [pageData, blankChunk, slice_length, h]

/-- Settles O25, page by page: the header commands do not read the framebuffer. -/
theorem flushShapeIgnoresContents : Obligations.FlushShapeIgnoresContents := by
  intro c bytes bytes' h
  unfold flushBody
  rw [List.map_flatMap, List.map_flatMap]
  refine List.flatMap_congr fun p _ => ?_
  rw [List.map_append, List.map_append, pageData_map_blankChunk c p h]

end Sys2Proof.Machine
end

section
/-! Proofs. RDSTAT and its STATUS byte (R24, R29, R158). -/

namespace Sys2Proof.Machine

/-- The STATUS byte as the sum of its fields (R29). -/
theorem status_toNat (s : State) :
    s.status.toNat = s.life.code.toNat + 4 * s.lockHeld.toNat + 8 * s.rstDriven.toNat + 16 * s.rstLevel.toNat := by
  unfold State.status
  cases s.life <;> cases s.lockHeld <;> cases s.rstDriven <;> cases s.rstLevel <;> rfl

/-- An OK response word is its data byte (R90, R91). -/
theorem responseWord_ok_toNat (data : Byte) : (responseWord .ok data).toNat = data.toNat := by
  have hcode : RespCode.ok.code ++ 0#20 = 0#24 := rfl
  rw [responseWord, hcode, BitVec.toNat_append]
  simp

theorem exec_rdstat (s : State) : exec .rdstat s = .next (answered s (responseWord .ok s.status)) := rfl

/-- Settles O20: the response word is STATUS, whose fields are the terms of the sum. -/
theorem rdstatReportsStatus : Obligations.RdstatReportsStatus := by
  intro s
  refine ⟨_, exec_rdstat s, rfl, ?_⟩
  have hresp : (answered s (responseWord .ok s.status)).resp = responseWord .ok s.status := rfl
  rw [hresp, responseWord_ok_toNat, status_toNat]
  cases s.life <;> rfl

end Sys2Proof.Machine
end

section
/-! Proofs. The acceptance of INIT and SHOW (R150, R210), and the table of the bring-up with its transactions (R154,
R159). -/

namespace Sys2Proof.Machine

theorem exec_init_uninit {s : State} (h : s.life = .uninit) :
    exec .init s = .next { s with life := .initializing, seq := initProgram s.cfg } := by
  simp [exec, execInit, h]

theorem exec_showFrame_ready {s : State} (h : s.life = .ready) :
    exec .showFrame s = .next { s with seq := showProgram } := by
  simp [exec, execShow, h]

/-- Settles O21. -/
theorem initAndShowAreAccepted : Obligations.InitAndShowAreAccepted :=
  fun _ => ⟨exec_init_uninit, exec_showFrame_ready⟩

/-- Settles O22: the bytes command by command, and the well-formedness as that of the bring-up's lock group. -/
theorem bringupIsTheTable : Obligations.BringupIsTheTable := by
  refine fun c => ⟨rfl, fun k hk => ?_⟩
  have hmem : MicroOp.command k ∈ bringupBody c := List.mem_append_left _ (List.mem_map_of_mem hk)
  exact List.all_eq_true.1 (bringupBody_wellFormed c) _ hmem

/-- The length of each transaction of the bring-up, control byte included, with opcode and argument together. -/
theorem bringup_perCommand_lengths (c : Cfg) :
    ((bringup c).flatMap fun k => commandTransactions .perCommand k.bytes).map List.length =
      [2, 3, 3, 3, 2, 3, 2, 2, 3, 3, 3, 3, 2, 2, 2] := rfl

/-- And with every command byte on its own. -/
theorem bringup_perByte_lengths (c : Cfg) :
    ((bringup c).flatMap fun k => commandTransactions .perByte k.bytes).map List.length = List.replicate 23 2 := rfl

/-- A list with `n` elements of length `m`, counted in the list of the lengths. -/
theorem countP_length_eq (ws : List (List Byte)) (m : Nat) :
    ws.countP (fun w => w.length = m) = (ws.map List.length).count m := by
  rw [List.count, List.countP_map]
  rfl

/-- Settles O23, from the list of the transactions' lengths under each grouping. -/
theorem bringupTransactionCounts : Obligations.BringupTransactionCounts := by
  refine fun c => ⟨fun hf => ?_, fun hf => ?_⟩
  · rw [hf, countP_length_eq, countP_length_eq, ← List.length_map (f := List.length), bringup_perCommand_lengths]
    decide
  · rw [hf, ← List.length_map (f := List.length), bringup_perByte_lengths]
    refine ⟨rfl, fun w hw => ?_⟩
    have hlen := List.mem_map_of_mem (f := List.length) hw
    rw [bringup_perByte_lengths] at hlen
    exact List.eq_of_mem_replicate hlen

end Sys2Proof.Machine
end

section
/-! Proofs. Lock groups that leave the reset line alone: the bring-up (R153 to R155) and the flush (R211 to R215), with
their writes acknowledged and with one that fails. -/

namespace Sys2Proof.Machine
variable {s : State} {body : List MicroOp} {rest : List SeqItem} {k : Nat} {lockLeft : List Bool}
  {busLeft : List BusResult} {pre post : List (List Byte)} {w : List Byte} {bytes : List Byte}

/-! ## Micro-operations that leave the reset line alone -/

/-- The micro-operation writes neither `RST_DRIVEN` nor `RST_LEVEL` (R127). -/
def LeavesLine (m : MicroOp) : Prop := ∀ b : Bool, drivenAfter b m = b ∧ levelAfter b m = b

theorem foldl_of_leavesLine (h : ∀ m ∈ body, LeavesLine m) (b : Bool) :
    body.foldl drivenAfter b = b ∧ body.foldl levelAfter b = b := by
  induction body with
  | nil => exact ⟨rfl, rfl⟩
  | cons m body ih =>
    obtain ⟨hm, hbody⟩ := List.forall_mem_cons.1 h
    rw [List.foldl_cons, List.foldl_cons, (hm b).1, (hm b).2]
    exact ih hbody

theorem bringupBody_leavesLine (c : Cfg) : ∀ m ∈ bringupBody c, LeavesLine m := by
  intro m hm
  rcases List.mem_append.1 hm with hm | hm
  · obtain ⟨k, -, rfl⟩ := List.mem_map.1 hm
    exact fun _ => ⟨rfl, rfl⟩
  · obtain rfl := List.mem_singleton.1 hm
    exact fun _ => ⟨rfl, rfl⟩

theorem flushBody_leavesLine (c : Cfg) (bytes : List Byte) : ∀ m ∈ flushBody c bytes, LeavesLine m := by
  intro m hm
  obtain ⟨p, -, hm⟩ := List.mem_flatMap.1 hm
  rcases List.mem_append.1 hm with hm | hm
  · simp only [pageHeader, List.mem_cons, List.not_mem_nil, or_false] at hm
    rcases hm with rfl | rfl | rfl <;> exact fun _ => ⟨rfl, rfl⟩
  · obtain ⟨k, -, rfl⟩ := List.mem_map.1 hm
    exact fun _ => ⟨rfl, rfl⟩

/-! ## Their lock groups -/

/-- The group of a body that leaves the line alone, put in front by the first step, all its writes acknowledged. -/
theorem reaches_group_ack (hstep : step s = .next { s with seq := lockGroup body ++ rest }) (hl : s.lockHeld = false)
    (hw : body.all (MicroOp.wellFormed s.cfg) = true) (hline : ∀ m ∈ body, LeavesLine m)
    (ha : s.env.lockAnswers = List.replicate k false ++ true :: lockLeft)
    (hb : s.env.busAnswers = List.replicate (writeCount (body.flatMap (microEvents s.cfg))) .ack ++ busLeft) :
    Reaches s { s with
      seq := rest
      trace := s.trace ++ (.acq :: body.flatMap (microEvents s.cfg) ++ [.rel])
      env := s.env.after (k + 1) lockLeft (writeCount (body.flatMap (microEvents s.cfg))) busLeft } := by
  have hgroup := reaches_lockGroup_ack (s := { s with seq := lockGroup body ++ rest }) hl rfl
    (List.all_eq_true.1 hw) ha hb
  simp only [foldl_of_leavesLine hline] at hgroup
  exact .step hstep hgroup

/-- The same group cut short at its first failing write, the one after the events `before`. -/
theorem reaches_group_fail {before after : List Event} (hstep : step s = .next { s with seq := lockGroup body ++ rest })
    (hl : s.lockHeld = false) (hw : body.all (MicroOp.wellFormed s.cfg) = true) (hline : ∀ m ∈ body, LeavesLine m)
    (ha : s.env.lockAnswers = List.replicate k false ++ true :: lockLeft)
    (hsp : body.flatMap (microEvents s.cfg) = before ++ .wr s.cfg.addr w .ack :: after)
    (hb : s.env.busAnswers = List.replicate (writeCount before) .ack ++ .fail :: busLeft) :
    Reaches s { s with
      seq := [.catchFail]
      trace := s.trace ++ (.acq :: before ++ [.wr s.cfg.addr w .fail, .rel])
      env := s.env.after (k + 1) lockLeft (writeCount before + 1) busLeft } := by
  obtain ⟨done, hdone, hgroup⟩ := reaches_lockGroup_fail (s := { s with seq := lockGroup body ++ rest }) hl rfl
    (List.all_eq_true.1 hw) ha hsp hb
  simp only [foldl_of_leavesLine fun m hm => hline m (hdone.subset hm)] at hgroup
  exact .step hstep hgroup

theorem acked_append_cons (c : Cfg) (pre post : List (List Byte)) (w : List Byte) :
    acked c (pre ++ w :: post) = acked c pre ++ .wr c.addr w .ack :: acked c post := by
  simp [acked]

/-! ## The bring-up -/

theorem writeCount_bringupBody (c : Cfg) :
    writeCount ((bringupBody c).flatMap (microEvents c)) = (bringupWrites c).length := by
  rw [bringupBody_events, writeCount_append, writeCount_acked]
  rfl

/-- The bring-up's group with its writes acknowledged (R153, R155). -/
theorem reaches_bringup_ack (hs : s.seq = .op (.withLock (bringupBody s.cfg)) :: rest) (hl : s.lockHeld = false)
    (ha : s.env.lockAnswers = List.replicate k false ++ true :: lockLeft)
    (hb : s.env.busAnswers = List.replicate (bringupWrites s.cfg).length .ack ++ busLeft) :
    Reaches s { s with
      seq := rest
      trace := s.trace ++ (.acq :: acked s.cfg (bringupWrites s.cfg) ++ [.wait 20, .rel])
      env := s.env.after (k + 1) lockLeft (bringupWrites s.cfg).length busLeft } := by
  rw [← writeCount_bringupBody] at hb ⊢
  have hgroup := reaches_group_ack (step_withLock hs) hl (bringupBody_wellFormed s.cfg) (bringupBody_leavesLine s.cfg)
    ha hb
  simpa only [bringupBody_events, List.cons_append, List.append_assoc, List.nil_append] using hgroup

/-- The bring-up's group with its first failing write the one after `pre`: the settle wait does not come (R157). -/
theorem reaches_bringup_fail (hs : s.seq = .op (.withLock (bringupBody s.cfg)) :: rest) (hl : s.lockHeld = false)
    (ha : s.env.lockAnswers = List.replicate k false ++ true :: lockLeft)
    (hsp : bringupWrites s.cfg = pre ++ w :: post)
    (hb : s.env.busAnswers = List.replicate pre.length .ack ++ .fail :: busLeft) :
    Reaches s { s with
      seq := [.catchFail]
      trace := s.trace ++ (.acq :: acked s.cfg pre ++ [.wr s.cfg.addr w .fail, .rel])
      env := s.env.after (k + 1) lockLeft (pre.length + 1) busLeft } := by
  have hevents : (bringupBody s.cfg).flatMap (microEvents s.cfg) =
      acked s.cfg pre ++ .wr s.cfg.addr w .ack :: (acked s.cfg post ++ [.wait 20]) := by
    rw [bringupBody_events, hsp, acked_append_cons, List.append_assoc, List.cons_append]
  rw [← writeCount_acked s.cfg pre] at hb ⊢
  exact reaches_group_fail (step_withLock hs) hl (bringupBody_wellFormed s.cfg) (bringupBody_leavesLine s.cfg) ha
    hevents hb

/-! ## The flush -/

theorem step_flush (hs : s.seq = .flush :: rest) (hd : s.fb.dump s.cfg.fbSize = .ok bytes) :
    step s = .next { s with seq := lockGroup (flushBody s.cfg bytes) ++ rest } := by
  rw [step_cons hs]
  simp only [runItem, hd]
  rfl

theorem writeCount_flushBody (c : Cfg) (bytes : List Byte) :
    writeCount ((flushBody c bytes).flatMap (microEvents c)) = (flushWrites c bytes).length := by
  rw [flushBody_events, writeCount_acked]

/-- A flush with its writes acknowledged (R213, R215). -/
theorem reaches_flush_ack (hs : s.seq = .flush :: rest) (hd : s.fb.dump s.cfg.fbSize = .ok bytes)
    (hl : s.lockHeld = false) (ha : s.env.lockAnswers = List.replicate k false ++ true :: lockLeft)
    (hb : s.env.busAnswers = List.replicate (flushWrites s.cfg bytes).length .ack ++ busLeft) :
    Reaches s { s with
      seq := rest
      trace := s.trace ++ showEvents s.cfg bytes
      env := s.env.after (k + 1) lockLeft (flushWrites s.cfg bytes).length busLeft } := by
  rw [← writeCount_flushBody] at hb ⊢
  rw [showEvents, ← flushBody_events]
  exact reaches_group_ack (step_flush hs hd) hl (flushBody_wellFormed s.cfg (Memory.dump_length hd))
    (flushBody_leavesLine s.cfg bytes) ha hb

/-- A flush with its first failing write the one after `pre` (R214). -/
theorem reaches_flush_fail (hs : s.seq = .flush :: rest) (hd : s.fb.dump s.cfg.fbSize = .ok bytes)
    (hl : s.lockHeld = false) (ha : s.env.lockAnswers = List.replicate k false ++ true :: lockLeft)
    (hsp : flushWrites s.cfg bytes = pre ++ w :: post)
    (hb : s.env.busAnswers = List.replicate pre.length .ack ++ .fail :: busLeft) :
    Reaches s { s with
      seq := [.catchFail]
      trace := s.trace ++ (.acq :: acked s.cfg pre ++ [.wr s.cfg.addr w .fail, .rel])
      env := s.env.after (k + 1) lockLeft (pre.length + 1) busLeft } := by
  have hevents : (flushBody s.cfg bytes).flatMap (microEvents s.cfg) =
      acked s.cfg pre ++ .wr s.cfg.addr w .ack :: acked s.cfg post := by
    rw [flushBody_events, hsp, acked_append_cons]
  rw [← writeCount_acked s.cfg pre] at hb ⊢
  exact reaches_group_fail (step_flush hs hd) hl (flushBody_wellFormed s.cfg (Memory.dump_length hd))
    (flushBody_leavesLine s.cfg bytes) ha hevents hb

end Sys2Proof.Machine
end

section
/-! Proofs. Whole runs of INIT (R150, R151, R157, R284): accepted in UNINIT, the reset pulse, the bring-up and the flush
of the zeroed framebuffer, with every write acknowledged, and with one of the bring-up or of the flush that fails. -/

namespace Sys2Proof.Machine
variable {s : State} {denials : List Nat} {lockLeft : List Bool} {busLeft : List BusResult} {rest : List SeqItem}

/-! ## The answers of the environment -/

theorem Env.after_after (e : Env) (locks locks' writes writes' : Nat) (lockLeft lockLeft' : List Bool)
    (busLeft busLeft' : List BusResult) :
    (e.after locks lockLeft writes busLeft).after locks' lockLeft' writes' busLeft' =
      e.after (locks + locks') lockLeft' (writes + writes') busLeft' := by
  simp [Env.after, Nat.add_assoc]

theorem grantsAfter_concat (denials : List Nat) (k : Nat) (lockLeft : List Bool) :
    grantsAfter (denials ++ [k]) ++ lockLeft =
      grantsAfter denials ++ (List.replicate k false ++ true :: lockLeft) := by
  simp [grantsAfter]

/-- The lock tries of one more group: its denials and its grant. -/
theorem tries_concat (denials : List Nat) (k : Nat) :
    (denials ++ [k]).length + (denials ++ [k]).sum = denials.length + denials.sum + (k + 1) := by
  rw [List.length_append, List.sum_append, List.length_singleton, List.sum_singleton]
  omega

theorem exists_concat_of_length {n : Nat} (h : denials.length = n + 1) :
    ∃ l k, denials = l ++ [k] ∧ l.length = n := by
  rcases List.eq_nil_or_concat' denials with rfl | ⟨l, k, rfl⟩
  · cases h
  · exact ⟨l, k, rfl, by simpa using h⟩

/-! ## INIT's first and last steps -/

/-- The host has just written INIT to `REQ` of a block in UNINIT. -/
structure InitRequested (s : State) : Prop where
  inv : Invariant s
  uninit : s.life = .uninit
  fetch : s.seq = [.fetch]
  req : s.req = 0x10000000#32

theorem InitRequested.free (h : InitRequested s) : s.lockHeld = false := by
  obtain ⟨-, hfree, -⟩ := h.inv.of_fetch h.fetch
  exact hfree

theorem InitRequested.step (h : InitRequested s) :
    Machine.step s = .next { s with life := .initializing, seq := initProgram s.cfg } := by
  have hd : decodeWord s.req = .init := by rw [h.req]; decide
  rw [step_cons h.fetch, runItem, hd]
  exact exec_init_uninit h.uninit

theorem step_complete_init (hs : s.seq = .complete :: rest) (hl : s.life = .initializing) :
    step s = .next (answered { s with life := .ready } 0x00000000#32) := by
  rw [step_cons hs]
  simp only [runItem, State.completeOp, hl]
  rfl

theorem step_catchFail_init (hs : s.seq = .catchFail :: rest) (hl : s.life = .initializing) :
    step s = .next (answered { s with life := .failed } 0x40000000#32) := by
  rw [step_cons hs]
  simp only [runItem, State.catchBusFail, hl]
  rfl

/-! ## INIT's stages -/

/-- INIT's micro-steps past the reset pulse (R150). -/
def afterPulse (c : Cfg) : List SeqItem := [.op (.withLock (bringupBody c)), .zeroFill, .flush, .complete]

theorem initProgram_line {c : Cfg} (h : c.hasReset = true) :
    initProgram c = .op (.withLock resetPulseBody) :: afterPulse c := by
  rw [initProgram, if_pos h]
  rfl

theorem initProgram_noLine {c : Cfg} (h : c.hasReset = false) : initProgram c = afterPulse c := by
  simp [initProgram, afterPulse, h]

/-- The events of the reset pulse are those of its group (R152). -/
theorem resetPulseEvents_line {c : Cfg} (h : c.hasReset = true) :
    resetPulseEvents c = .acq :: resetPulseBody.flatMap (microEvents c) ++ [.rel] := if_pos h

theorem resetPulseEvents_noLine {c : Cfg} (h : c.hasReset = false) : resetPulseEvents c = [] := by
  simp [resetPulseEvents, h]

/-- A state of the run of INIT from `s`, past the reset pulse: what is still pending, the framebuffer, the events that
INIT has made so far, and the answers that are left. -/
def State.inInit (s : State) (seq : List SeqItem) (fb : Memory) (events : List Event) (env : Env) : State :=
  { s with
    life := .initializing
    rstDriven := s.cfg.hasReset
    rstLevel := s.cfg.hasReset
    fb := fb
    seq := seq
    trace := s.trace ++ events
    env := env }

/-- The reset pulse's group: it leaves the line driven and high, and makes no bus write (R152). -/
theorem reaches_resetPulse {k : Nat} (hs : s.seq = .op (.withLock resetPulseBody) :: rest) (hl : s.lockHeld = false)
    (hr : s.cfg.hasReset = true) (ha : s.env.lockAnswers = List.replicate k false ++ true :: lockLeft) :
    Reaches s { s with
      seq := rest
      trace := s.trace ++ resetPulseEvents s.cfg
      rstDriven := true
      rstLevel := true
      env := s.env.after (k + 1) lockLeft 0 s.env.busAnswers } := by
  rw [resetPulseEvents_line hr]
  exact .step (step_withLock hs) (reaches_lockGroup_ack (s := { s with seq := lockGroup resetPulseBody ++ rest }) hl rfl
    (List.all_eq_true.1 (resetPulseBody_wellFormed hr)) ha rfl)

/-- INIT is accepted and has the reset pulse behind it, if there is a reset line (R151, R152). -/
theorem InitRequested.reaches_pulsed (h : InitRequested s) (hn : denials.length + 2 = initLocks s.cfg)
    (ha : s.env.lockAnswers = grantsAfter denials ++ lockLeft) :
    Reaches s (s.inInit (afterPulse s.cfg) s.fb (resetPulseEvents s.cfg)
      (s.env.after (denials.length + denials.sum) lockLeft 0 s.env.busAnswers)) := by
  refine .step h.step ?_
  cases hr : s.cfg.hasReset with
  | false =>
    obtain rfl : denials = [] := List.length_eq_zero_iff.1 (by simpa [initLocks, hr] using hn)
    obtain ⟨hdriven, hlevel⟩ := h.inv.noReset hr
    obtain rfl : s.env.lockAnswers = lockLeft := ha
    have hstart : s.inInit (afterPulse s.cfg) s.fb (resetPulseEvents s.cfg)
        (s.env.after 0 s.env.lockAnswers 0 s.env.busAnswers) =
        { s with life := .initializing, seq := initProgram s.cfg } := by
      simp [State.inInit, initProgram_noLine hr, resetPulseEvents_noLine hr, hr, hdriven, hlevel, Env.after]
    exact hstart ▸ Reaches.refl _
  | true =>
    obtain ⟨k, rfl⟩ : ∃ k, denials = [k] := List.length_eq_one_iff.1 (by simpa [initLocks, hr] using hn)
    have hk : s.env.lockAnswers = List.replicate k false ++ true :: lockLeft :=
      ha.trans (grantsAfter_concat [] k lockLeft)
    have hpulse := reaches_resetPulse (s := { s with life := .initializing, seq := initProgram s.cfg })
      (initProgram_line hr) h.free hr hk
    simpa only [State.inInit, hr, List.length_singleton, List.sum_singleton, Nat.add_comm 1] using hpulse

/-- INIT then has the bring-up behind it and the framebuffer zeroed (R153 to R156). -/
theorem InitRequested.reaches_broughtUp (h : InitRequested s) (hn : denials.length + 1 = initLocks s.cfg)
    (ha : s.env.lockAnswers = grantsAfter denials ++ lockLeft)
    (hb : s.env.busAnswers = List.replicate (bringupWrites s.cfg).length .ack ++ busLeft) :
    Reaches s (s.inInit [.flush, .complete] (Memory.filled s.cfg.fbSize 0x00)
      (resetPulseEvents s.cfg ++ (.acq :: acked s.cfg (bringupWrites s.cfg) ++ [.wait 20, .rel]))
      (s.env.after (denials.length + denials.sum) lockLeft (bringupWrites s.cfg).length busLeft)) := by
  obtain ⟨pulse, k, rfl, hpulse⟩ := exists_concat_of_length (Nat.succ.inj hn)
  rw [grantsAfter_concat] at ha
  have hpulsed := h.reaches_pulsed (congrArg (· + 2) hpulse) ha
  refine hpulsed.trans (.trans (reaches_bringup_ack rfl (by exact h.free) rfl hb)
    (.one ((step_cons rfl).trans ?_)))
  simp only [runItem, State.fillFb, State.inInit, Env.after_after, tries_concat, Nat.zero_add, List.append_assoc]

/-! ## The whole runs -/

theorem writeCount_initEvents (c : Cfg) : writeCount (initEvents c) =
    (bringupWrites c).length + (flushWrites c (List.replicate c.fbSize 0x00)).length := by
  have hpulse : writeCount (resetPulseEvents c) = 0 := by
    unfold resetPulseEvents
    split <;> rfl
  have hacq : ∀ es, writeCount (.acq :: es) = writeCount es := fun _ => List.countP_cons_of_neg (by simp)
  have hwait : writeCount [.wait 20, .rel] = 0 := rfl
  have hrel : writeCount [.rel] = 0 := rfl
  simp only [initEvents, List.cons_append, hacq, writeCount_append, writeCount_acked, hpulse, hwait, hrel,
    Nat.zero_add, Nat.add_zero]

/-- Settles O41, stage by stage; the flush reads the zeroed framebuffer. -/
theorem initBringsTheBlockUp : Obligations.InitBringsTheBlockUp := by
  intro s denials lockLeft busLeft hinv hu hs hr hn ha hb
  have h : InitRequested s := ⟨hinv, hu, hs, hr⟩
  obtain ⟨ups, k, rfl, hups⟩ := exists_concat_of_length hn
  rw [grantsAfter_concat] at ha
  rw [writeCount_initEvents, List.replicate_add, List.append_assoc] at hb
  have hup := h.reaches_broughtUp (congrArg (· + 1) hups) ha hb
  refine hup.trans (.trans (reaches_flush_ack rfl (Memory.dump_filled _ _) (by exact h.free) rfl rfl)
    (.one ((step_complete_init rfl rfl).trans ?_)))
  rw [writeCount_initEvents]
  simp only [answered, State.inInit, Env.after_after, tries_concat, initEvents, showEvents, List.append_assoc]

/-- Settles O42: the failing group is the bring-up's. -/
theorem initFailsInTheBringup : Obligations.InitFailsInTheBringup := by
  intro s denials lockLeft busLeft pre post w hinv hu hs hr hn ha hsp hb
  have h : InitRequested s := ⟨hinv, hu, hs, hr⟩
  obtain ⟨pulse, k, rfl, hpulse⟩ := exists_concat_of_length (Nat.succ.inj hn)
  rw [grantsAfter_concat] at ha
  have hpulsed := h.reaches_pulsed (congrArg (· + 2) hpulse) ha
  refine hpulsed.trans (.trans (reaches_bringup_fail rfl (by exact h.free) rfl hsp hb)
    (.one ((step_catchFail_init rfl rfl).trans ?_)))
  simp only [answered, State.inInit, Env.after_after, tries_concat, Nat.zero_add, List.append_assoc]

/-- Settles O43: the failing group is the flush's. -/
theorem initFailsInTheFlush : Obligations.InitFailsInTheFlush := by
  intro s denials lockLeft busLeft pre post w hinv hu hs hr hn ha hsp hb
  have h : InitRequested s := ⟨hinv, hu, hs, hr⟩
  obtain ⟨ups, k, rfl, hups⟩ := exists_concat_of_length hn
  rw [grantsAfter_concat] at ha
  rw [List.replicate_add, List.append_assoc] at hb
  have hup := h.reaches_broughtUp (congrArg (· + 1) hups) ha hb
  refine hup.trans (.trans (reaches_flush_fail rfl (Memory.dump_filled _ _) (by exact h.free) rfl hsp rfl)
    (.one ((step_catchFail_init rfl rfl).trans ?_)))
  simp only [answered, State.inInit, Env.after_after, tries_concat, List.append_assoc, Nat.add_assoc]

end Sys2Proof.Machine
end

section
/-! Proofs. MAP is one-to-one from the in-range pairs onto the (index, bit) pairs of the framebuffer (R180, R181). -/

namespace Sys2Proof

theorem Cfg.width_le (c : Cfg) : c.width ≤ 2047 := by
  have := c.isLegal
  simp only [Params.legal, Bool.and_eq_true, decide_eq_true_eq] at this
  omega

/-- Every framebuffer index fits the 16-bit INDEX field of RDFB (R86). -/
theorem Cfg.fbSize_lt (c : Cfg) : c.fbSize < 2 ^ 16 :=
  calc c.width * c.pages ≤ 2047 * 16 := Nat.mul_le_mul c.width_le c.pages_le
    _ < 2 ^ 16 := by norm_num

namespace Machine

theorem mapXY_isSome_iff {c : Cfg} {x y : Int} :
    (mapXY c x y).isSome = true ↔ (0 ≤ x ∧ x < c.width) ∧ (0 ≤ y ∧ y < c.height) := by
  rw [← inRange_iff]
  simp [mapXY]

/-- MAP's formulas with the integers of the rule (R180). -/
theorem mapXY_int {c : Cfg} {x y : Int} {index bit : Nat} (h : mapXY c x y = some (index, bit)) :
    (index : Int) = (y / 8) * c.width + x ∧ (bit : Int) = y % 8 := by
  obtain ⟨hr, rfl, rfl⟩ := mapXY_eq_some.1 h
  obtain ⟨⟨hx, -⟩, hy, -⟩ := inRange_iff.1 hr
  push_cast
  rw [Int.toNat_of_nonneg hx, Int.toNat_of_nonneg hy]
  exact ⟨rfl, rfl⟩

/-- The pair that MAP takes to a given index and bit. -/
def unmapXY (c : Cfg) (index bit : Nat) : Int × Int :=
  (((index % c.width : Nat) : Int), ((8 * (index / c.width) + bit : Nat) : Int))

theorem mapXY_unmapXY {c : Cfg} {index bit : Nat} (hi : index < c.fbSize) (hb : bit < 8) :
    mapXY c (unmapXY c index bit).1 (unmapXY c index bit).2 = some (index, bit) := by
  have hcol : index % c.width < c.width := Nat.mod_lt _ c.width_pos
  have hpage : index / c.width < c.pages := Nat.div_lt_of_lt_mul hi
  have hh := c.height_eq
  refine mapXY_eq_some.2 ⟨inRange_iff.2 ?_, ?_, ?_⟩
  · simp only [unmapXY]
    omega
  · have hrow : (8 * (index / c.width) + bit) / 8 = index / c.width := by omega
    rw [unmapXY, Int.toNat_natCast, Int.toNat_natCast, hrow, Nat.mul_comm, Nat.div_add_mod]
  · simp only [unmapXY, Int.toNat_natCast]
    omega

theorem unmapXY_mapXY {c : Cfg} {x y : Int} {index bit : Nat} (h : mapXY c x y = some (index, bit)) :
    (x, y) = unmapXY c index bit := by
  obtain ⟨hr, rfl, rfl⟩ := mapXY_eq_some.1 h
  obtain ⟨⟨hx, hx'⟩, hy, -⟩ := inRange_iff.1 hr
  have hcol : x.toNat < c.width := by omega
  have hmod : (y.toNat / 8 * c.width + x.toNat) % c.width = x.toNat := Nat.mul_add_mod_of_lt hcol
  have hdiv : (y.toNat / 8 * c.width + x.toNat) / c.width = y.toNat / 8 := by
    rw [Nat.mul_comm, Nat.mul_add_div c.width_pos, Nat.div_eq_of_lt hcol, Nat.add_zero]
  rw [unmapXY, hmod, hdiv, Nat.div_add_mod, Int.toNat_of_nonneg hx, Int.toNat_of_nonneg hy]

/-- MAP reads nothing of the configuration but WIDTH and HEIGHT. -/
theorem mapXY_congr {c c' : Cfg} (hw : c'.width = c.width) (hh : c'.height = c.height) (x y : Int) :
    mapXY c' x y = mapXY c x y := by
  rw [mapXY, mapXY, inRange, inRange, hw, hh]

/-- Settles O12: `unmapXY` is the inverse of MAP. -/
theorem mapperIsBijection : Obligations.MapperIsBijection := by
  intro c
  refine ⟨fun x y => mapXY_isSome_iff, ?_, ?_, fun c' => mapXY_congr⟩
  · intro x y index bit h
    obtain ⟨hindex, hbit⟩ := mapXY_int h
    exact ⟨hindex, hbit, mapXY_lt h⟩
  · intro index bit hi hb
    exact ⟨unmapXY c index bit, mapXY_unmapXY hi hb, fun p hp => unmapXY_mapXY hp⟩

end Machine
end Sys2Proof
end

section
/-! Proofs. What SETPIX and FILL leave in the framebuffer (R182 to R187), and what RDFB reads there (R188, R189). -/

namespace Sys2Proof.Machine
variable {s t : State} {x y : BitVec 12} {v : Bool} {index : BitVec 16}

/-! ## The OK response -/

/-- CODE of OK and the reserved bits are 0, so the response word is its data byte (R90, R91). -/
theorem responseWord_ok (data : Byte) : responseWord .ok data = data.setWidth 32 := by
  refine BitVec.eq_of_toNat_eq ?_
  rw [responseWord_ok_toNat, BitVec.toNat_setWidth_of_le (by decide)]

theorem respond_ok (s : State) (data : Byte) : s.respond .ok data = answered s (data.setWidth 32) :=
  congrArg (answered s) (responseWord_ok data)

/-! ## SETPIX -/

/-- PIX of a pair that maps to a readable byte (R185). -/
theorem pix_eq_some {x y : Int} {i bit : Nat} {b : Byte} (hm : mapXY s.cfg x y = some (i, bit))
    (hb : s.readFb i = .ok b) : s.pix x y = some (b.getLsbD bit) := by
  simp [State.pix, hm, hb]

/-- Settles O13, from SETPIX's equation: the byte read back is the one BITWRITE made. -/
theorem setpixInRangeWritesOneBit : Obligations.SetpixInRangeWritesOneBit := by
  intro s x y v i bit b hl hm hb
  have hi : i < s.cfg.fbSize := (Memory.read_ok hb).1
  have hbits := bit_bitWriteByte b bit (mapXY_lt hm).2 v
  have hread : (s.fb.put i (bitWriteByte b bit v)).read s.cfg.fbSize i = .ok (bitWriteByte b bit v) :=
    Memory.read_put_self s.fb _ hi
  refine ⟨_, _, exec_setpix_inRange hl hm hb, rfl, hread, hbits, fun j hj => Memory.read_put_ne s.fb _ hj, ?_⟩
  refine Eq.trans (pix_eq_some hm hread) ?_
  rw [hbits, if_pos rfl]

/-- Settles O14: MAP gives nothing for an out-of-range pair. -/
theorem setpixOutOfRangeIsNoOp : Obligations.SetpixOutOfRangeIsNoOp := by
  intro s x y v hl hr
  have hm : mapXY s.cfg x.toInt y.toInt = none := by
    rwa [← mapXY_isSome_iff, Option.not_isSome_iff_eq_none] at hr
  exact exec_setpix_outOfRange hl hm

/-! ## FILL -/

theorem Memory.length_filled (size : Nat) (b : Byte) : (Memory.filled size b).length = size := by
  simp [Memory.filled]

/-- Settles O16, from FILL's equation in and outside READY. -/
theorem fillWritesEveryByte : Obligations.FillWritesEveryByte := by
  intro s v
  refine ⟨fun hl => ⟨_, exec_fill_ready hl, rfl, ?_, ?_, ?_⟩, exec_fill_notReady⟩
  · exact Memory.length_filled ..
  · exact Memory.wf_filled ..
  · exact fun i hi => Memory.read_filled _ hi

/-- Settles O17: the second fill starts in READY too, and overwrites all that the first one wrote. -/
theorem fillOneThenZeroClears : Obligations.FillOneThenZeroClears := by
  intro s hl
  refine ⟨_, _, exec_fill_ready hl, exec_fill_ready hl, ?_, ?_⟩
  · exact Memory.length_filled ..
  · exact fun i hi => Memory.read_filled _ hi

/-! ## RDFB -/

/-- Outside READY, RDFB only answers NOT_READY (R251). -/
theorem exec_rdfb_notReady (hl : s.life ≠ .ready) : exec (.rdfb index) s = .next (s.respond .notReady 0) := by
  cases h : s.life with
  | ready => exact absurd h hl
  | uninit | initializing | failed => simp [exec, execRdfb, h]

/-- An index from FB_SIZE on is answered RANGE (R188). -/
theorem exec_rdfb_range (hl : s.life = .ready) (hi : s.cfg.fbSize ≤ index.toNat) :
    exec (.rdfb index) s = .next (s.respond .range 0) := by
  simp [exec, execRdfb, hl, hi]

/-- An index below FB_SIZE is answered with its byte (R188). -/
theorem exec_rdfb_read {b : Byte} (hl : s.life = .ready) (hb : s.readFb index.toNat = .ok b) :
    exec (.rdfb index) s = .next (answered s (b.setWidth 32)) := by
  have hi : ¬ s.cfg.fbSize ≤ index.toNat := Nat.not_le.2 (Memory.read_ok hb).1
  rw [← respond_ok]
  simp [exec, execRdfb, hl, hi, hb, Except.map, outcomeOf]

/-- Settles O18, by the index and `STATE`. -/
theorem rdfbReadsOrRange : Obligations.RdfbReadsOrRange := fun _ _ =>
  ⟨fun hl _ hb => exec_rdfb_read hl hb, exec_rdfb_range, exec_rdfb_notReady⟩

/-- In two READY states of one configuration whose bytes at an index agree, RDFB of that index gives the same answer. -/
theorem exec_rdfb_agree (hs : s.life = .ready) (ht : t.life = .ready) (hc : t.cfg = s.cfg)
    (hfull : Memory.full s.cfg.fbSize s.fb = true) (hr : t.readFb index.toNat = s.readFb index.toNat) :
    ∃ w, exec (.rdfb index) s = .next (answered s w) ∧ exec (.rdfb index) t = .next (answered t w) := by
  rcases Nat.lt_or_ge index.toNat s.cfg.fbSize with hi | hi
  · obtain ⟨b, hb⟩ : ∃ b, s.readFb index.toNat = .ok b := Memory.read_of_full hfull hi
    exact ⟨_, exec_rdfb_read hs hb, exec_rdfb_read ht (hr.trans hb)⟩
  · exact ⟨_, exec_rdfb_range hs hi, exec_rdfb_range ht (hc ▸ hi)⟩

/-- Settles O19: SETPIX writes one bit and leaves the other bytes (O13), and RDFB reads what is there. -/
theorem setpixThenRdfbReadsBack : Obligations.SetpixThenRdfbReadsBack := by
  intro s x y i bit hl hfull hm
  have hi := (mapXY_lt hm).1
  obtain ⟨b, hb⟩ : ∃ b, s.readFb i = .ok b := Memory.read_of_full hfull hi
  obtain ⟨t, d, hexec, ht, hread, hbits, hother, -⟩ := setpixInRangeWritesOneBit s x y true i bit b hl hm hb
  have hlt : t.life = .ready := by rw [ht]; exact hl
  have hct : t.cfg = s.cfg := by rw [ht]; rfl
  have hfield : (BitVec.ofNat 16 i).toNat = i := by
    rw [BitVec.toNat_ofNat, Nat.mod_eq_of_lt (hi.trans s.cfg.fbSize_lt)]
  refine ⟨t, d, hexec, exec_rdfb_read hlt (by rwa [hfield]), ?_, fun j hj => ?_⟩
  · rw [hbits, if_pos rfl]
  · exact exec_rdfb_agree hl hlt hct hfull (hother j.toNat hj)

end Sys2Proof.Machine
end

section
/-! Proofs. The chunks of a flush joined are the framebuffer's bytes (R211, R212, R215), and whole runs of SHOW with its
writes acknowledged (R210, R213) and with one that fails (R214). -/

namespace Sys2Proof.Machine
variable {s : State} {rest : List SeqItem} {c : Cfg}

/-! ## The chunks of a flush -/

/-- Slices with rising bounds, each beginning where the one before ends, join to one slice (R9). -/
theorem flatMap_slice (l : List Byte) {bound : Nat → Nat} (hmono : Monotone bound) (n : Nat) :
    (List.range n).flatMap (fun k => slice l (bound k) (bound (k + 1))) = slice l (bound 0) (bound n) := by
  induction n with
  | zero => simp [slice]
  | succ n ih =>
    rw [List.range_succ, List.flatMap_append, ih, List.flatMap_singleton]
    exact slice_append l _ _ _ (hmono n.zero_le) (hmono n.le_succ)

/-- Where chunk `k` of page `p` begins in the framebuffer, or the end of the page when its chunks are used up (R212). -/
def chunkStart (c : Cfg) (p k : Nat) : Nat := p * c.width + min (k * c.chunk) c.width

theorem chunkStart_mono (c : Cfg) (p : Nat) : Monotone (chunkStart c p) := fun _ _ h =>
  Nat.add_le_add_left (min_le_min_right _ (Nat.mul_le_mul_right _ h)) _

/-- A data transaction's bytes are a slice from its chunk's start to the next one's (R212). -/
theorem slice_chunkStart (bytes : List Byte) (p : Nat) {k : Nat} (hk : k < ceilDiv c.width c.chunk) :
    slice bytes (p * c.width + k * c.chunk) (p * c.width + min (k * c.chunk + c.chunk) c.width) =
      slice bytes (chunkStart c p k) (chunkStart c p (k + 1)) := by
  rw [chunkStart, chunkStart, min_eq_left (chunk_lt c.chunk_pos hk).le, Nat.succ_mul]

/-- The data of page `p` is the page's bytes: the first chunk begins and the last one ends with the page (R212). -/
theorem pageData_chunkBytes (c : Cfg) (bytes : List Byte) (p : Nat) :
    (pageData c bytes p).flatMap chunkBytes = slice bytes (p * c.width) ((p + 1) * c.width) := by
  have hfirst : chunkStart c p 0 = p * c.width := by simp [chunkStart]
  have hlast : chunkStart c p (ceilDiv c.width c.chunk) = (p + 1) * c.width := by
    rw [chunkStart, min_eq_right (le_ceilDiv_mul c.chunk_pos), Nat.succ_mul]
  rw [← hlast, ← hfirst, ← flatMap_slice bytes (chunkStart_mono c p), pageData, List.flatMap_map]
  exact List.flatMap_congr fun k hk => slice_chunkStart bytes p (List.mem_range.1 hk)

/-- The pages joined are the framebuffer (R211). -/
theorem flushBody_chunkBytes {bytes : List Byte} (h : bytes.length = c.fbSize) :
    (flushBody c bytes).flatMap chunkBytes = bytes := by
  have hpage (p : Nat) : (pageHeader c p ++ pageData c bytes p).flatMap chunkBytes =
      slice bytes (p * c.width) ((p + 1) * c.width) := by
    rw [List.flatMap_append, pageData_chunkBytes]
    rfl
  have hpages := flatMap_slice bytes (bound := (· * c.width)) (fun _ _ => Nat.mul_le_mul_right _) c.pages
  have hall : c.pages * c.width = bytes.length := by rw [h, Cfg.fbSize, Nat.mul_comm]
  simp only [flushBody, List.flatMap_assoc, hpage, hpages, hall]
  simp [slice]

/-- A page is three header commands and its data transactions (R215). -/
theorem flushBody_length (c : Cfg) (bytes : List Byte) :
    (flushBody c bytes).length = c.pages * (3 + ceilDiv c.width c.chunk) := by
  simp [flushBody, pageHeader, pageData, List.length_flatMap, Nat.add_comm 3]

/-- Settles O24, from the flush's micro-operations, its bus writes, and its chunks. -/
theorem flushCoversFramebufferOnce : Obligations.FlushCoversFramebufferOnce := by
  intro c bytes h
  refine ⟨flushBody_length c bytes, ?_, flushBody_wellFormed c h, flushBody_chunkBytes h⟩
  rw [writeCount_flushBody, flushWrites_length]

/-! ## SHOW's first and last steps -/

/-- A SHOW fetched in READY is accepted (R210). -/
theorem step_fetch_show (hs : s.seq = [.fetch]) (hl : s.life = .ready) (hr : s.req = 0x40000000#32) :
    step s = .next { s with seq := showProgram } := by
  have hd : decodeWord s.req = .showFrame := by rw [hr]; decide
  rw [step_cons hs, runItem, hd]
  exact exec_showFrame_ready hl

/-- In READY the end of an operation only responds (R210). -/
theorem completeOp_ready (hl : s.life = .ready) : s.completeOp = answered s 0x00000000#32 := by
  rw [State.completeOp, hl]
  rfl

/-- In READY the catch of an operation only responds (R214). -/
theorem catchBusFail_ready (hl : s.life = .ready) : s.catchBusFail = answered s 0x40000000#32 := by
  rw [State.catchBusFail, hl]
  rfl

theorem step_complete_ready (hs : s.seq = .complete :: rest) (hl : s.life = .ready) :
    step s = .next (answered s 0x00000000#32) :=
  (step_cons hs).trans (congrArg Host.Outcome.next (completeOp_ready (s := { s with seq := rest }) hl))

theorem step_catchFail_ready (hs : s.seq = .catchFail :: rest) (hl : s.life = .ready) :
    step s = .next (answered s 0x40000000#32) :=
  (step_cons hs).trans (congrArg Host.Outcome.next (catchBusFail_ready (s := { s with seq := rest }) hl))

/-! ## The whole runs -/

/-- Settles O39: the acceptance, the flush with all its writes acknowledged, and the end. -/
theorem showSendsTheFramebuffer : Obligations.ShowSendsTheFramebuffer := by
  intro s bytes k lockLeft busLeft hinv hl hs hr hd ha hb
  obtain ⟨-, hfree, -⟩ := hinv.of_fetch hs
  rw [← flushWrites_length s.cfg bytes] at hb ⊢
  have hflush := reaches_flush_ack (s := { s with seq := showProgram }) rfl hd hfree ha hb
  exact .step (step_fetch_show hs hl hr) (hflush.trans (.one (step_complete_ready rfl hl)))

/-- Settles O40: the acceptance, the flush up to its failing write and the release, and the catch. -/
theorem showStopsAtAFailedWrite : Obligations.ShowStopsAtAFailedWrite := by
  intro s bytes k lockLeft busLeft pre post w hinv hl hs hr hd ha hsp hb
  obtain ⟨-, hfree, -⟩ := hinv.of_fetch hs
  have hflush := reaches_flush_fail (s := { s with seq := showProgram }) rfl hd hfree ha hsp hb
  exact .step (step_fetch_show hs hl hr) (hflush.trans (.one (step_catchFail_ready rfl hl)))

end Sys2Proof.Machine
end

section
/-! Proofs. The host's pseudo-operations that emit no word: LOOKUP, CENTER_X and PROBE_LOCK (R235 to R237), and that no
pseudo-operation touches the block (R230). -/

namespace Sys2Proof.Machine
variable {s : State} {font : Font} {ch : Char} {timeout : Nat}

/-- Settles O52, which is the one effect a pseudo-operation can have. -/
theorem pseudoOperationsLeaveTheBlockAlone : Obligations.PseudoOperationsLeaveTheBlockAlone :=
  fun _ _ _ => exec_pseudo_next

/-! ## LOOKUP -/

theorem exec_lookup_some {g : Glyph} (h : fontLookup font ch = some g) :
    exec (.lookup font ch) s = .next { s with hostValue := .glyph g } := by
  simp [exec, execLookup, h]

theorem exec_lookup_none (h : fontLookup font ch = none) :
    exec (.lookup font ch) s = .refused .fontWithoutDefault := by
  simp [exec, execLookup, h]

/-- Settles O57, by the format of the font and its default glyph. -/
theorem lookupFallsBackToTheDefault : Obligations.LookupFallsBackToTheDefault := fun s ch es fs => by
  refine ⟨fun d hd => exec_lookup_some ?_, fun hd => exec_lookup_none ?_,
    fun d hd => exec_lookup_some ?_, fun hd => exec_lookup_none ?_⟩
  all_goals
    rw [fontLookup, hd]
    rfl

/-! ## CENTER_X -/

theorem centerX_of_width_le {c : Cfg} {w : Nat} (h : c.width ≤ w) : centerX c w = 0 := by
  unfold centerX
  omega

theorem centerX_of_le_width {c : Cfg} {w : Nat} (h : w ≤ c.width) : centerX c w = ((c.width : Int) - w) / 2 := by
  unfold centerX
  omega

/-- Settles O58: up to WIDTH the quotient is not negative, and from WIDTH on it is not positive. -/
theorem centerXIsTheFloorOfHalf : Obligations.CenterXIsTheFloorOfHalf := by
  refine fun s w => ⟨centerX s.cfg w, rfl, centerX_of_width_le, fun h => ?_⟩
  rw [centerX_of_le_width h]
  omega

/-! ## PROBE_LOCK -/

theorem exec_probeLock_granted (ha : s.lockAnswer = true) (hl : s.lockHeld = false) :
    exec (.probeLock timeout) s = .next { s with hostValue := .probe true, env := s.lockDrawn.env } := by
  simp [exec, execProbeLock, ha, hl, State.lockDrawn]

theorem exec_probeLock_denied (h : s.lockAnswer = false ∨ s.lockHeld = true) :
    exec (.probeLock timeout) s = .next (
      if s.lockDrawn.clockAnswer timeout then { s with hostValue := .probe false, env := s.lockDrawn.clockDrawn.env }
      else { s with host := .call (.probeLock timeout) :: s.host, env := s.lockDrawn.clockDrawn.env }) := by
  have hdenied : (s.lockAnswer && !s.lockHeld) = false := by
    rcases h with h | h
    · rw [h, Bool.false_and]
    · rw [h, Bool.not_true, Bool.and_false]
  rw [exec, execProbeLock, hdenied]
  rfl

/-- Settles O59, by the arbiter's answer and then by the clock's. -/
theorem probeLockTriesUntilTimeout : Obligations.ProbeLockTriesUntilTimeout := by
  refine fun s timeout => ⟨exec_probeLock_granted, fun h => ⟨fun ht => ?_, fun ht => ?_⟩⟩
  · rw [exec_probeLock_denied h, ht]
    rfl
  · rw [exec_probeLock_denied h, ht]
    rfl

end Sys2Proof.Machine
end

section
/-! Proofs. The words of glyphs and texts (R231, R232, R234). A glyph's words are made of the list of its '1' cells, in
the order of its format, by the one clipping of R231. -/

namespace Sys2Proof.Machine
variable {s : State} {m n : Nat} {x y spacing : Int} {font : Font} {ch : Char} {text : List Char}

/-! ## The cells of a glyph -/

/-- The places of the lit cells of a grid, line by line. -/
def litCells (lit : Fin m → Fin n → Bool) (place : Fin m → Fin n → Int × Int) : List (Int × Int) :=
  (List.finRange m).flatMap fun i => ((List.finRange n).filter (lit i)).map (place i)

theorem mem_litCells {lit : Fin m → Fin n → Bool} {place : Fin m → Fin n → Int × Int} {p : Int × Int} :
    p ∈ litCells lit place ↔ ∃ i j, lit i j = true ∧ p = place i j := by
  simp [litCells, eq_comm (a := p)]

/-- The '1' cells of a glyph at (x, y): by rows in the row-major format, by columns in the column-major one. -/
def glyphCells (x y : Int) : Glyph → List (Int × Int)
  | .rowMajor g => litCells (GlyphR.cell g) fun r c => (x + c.val, y + r.val)
  | .colMajor g => litCells (GlyphC.cell g) fun c r => (x + c.val, y + r.val)

/-- The word of one '1' cell, or none where it is clipped (R231). -/
def cellWord (p : Int × Int) : Option Word := setpixWord p.1 p.2

theorem glyphWords_eq_cells (x y : Int) (gl : Glyph) : glyphWords x y gl = (glyphCells x y gl).filterMap cellWord := by
  cases gl with
  | rowMajor | colMajor =>
    simp only [glyphCells, litCells, List.filterMap_flatMap, List.filterMap_map, List.filterMap_filter]
    rfl

/-- The lit cells of a column are the bits that the rule's shift and mask find (R232). -/
theorem GlyphC.cell_iff {g : GlyphC} {c : Fin 5} {r : Fin 7} :
    GlyphC.cell g c r = true ↔ (g.cols[c] >>> (r : Nat)) &&& 1#8 = 1#8 := by
  have hcell : GlyphC.cell g c r = (g.cols[c] >>> (r : Nat)).getLsbD 0 := by
    rw [BitVec.getLsbD_ushiftRight]
    rfl
  rw [hcell, BitVec.and_one_eq_setWidth_ofBool_getLsbD]
  cases (g.cols[c] >>> (r : Nat)).getLsbD 0 with
  | false | true => decide

/-! ## What the words decode to -/

theorem setpixWord_eq_some {w : Word} : setpixWord x y = some w ↔
    (fitsS12 x = true ∧ fitsS12 y = true) ∧ wordP (BitVec.ofInt 12 x) (BitVec.ofInt 12 y) true = w := by
  simp [setpixWord, assemble_setpix_eq_some, bitOperand_eq_some]

/-- A cell's word is SETPIX of the cell, and there is none exactly where a coordinate does not fit its field. -/
theorem cellWord_decode (p : Int × Int) : (cellWord p).map decodeWord =
    if (-2048 ≤ p.1 ∧ p.1 ≤ 2047) ∧ (-2048 ≤ p.2 ∧ p.2 ≤ 2047) then
      some (.setpix (BitVec.ofInt 12 p.1) (BitVec.ofInt 12 p.2) true)
    else none := by
  simp only [← fitsS12_iff]
  split_ifs with hfits
  · rw [cellWord, setpixWord_eq_some.2 ⟨hfits, rfl⟩, Option.map_some, decodeWord_wordP]
  · refine Option.map_eq_none_iff.2 (Option.eq_none_iff_forall_ne_some.2 fun w hw => ?_)
    exact hfits (setpixWord_eq_some.1 hw).1

theorem litCells_decode (lit : Fin m → Fin n → Bool) (place : Fin m → Fin n → Int × Int) :
    ((litCells lit place).filterMap cellWord).map decodeWord =
      (List.finRange m).flatMap fun i => (List.finRange n).flatMap fun j =>
        if lit i j = true ∧ (-2048 ≤ (place i j).1 ∧ (place i j).1 ≤ 2047) ∧
            (-2048 ≤ (place i j).2 ∧ (place i j).2 ≤ 2047) then
          [Instr.setpix (BitVec.ofInt 12 (place i j).1) (BitVec.ofInt 12 (place i j).2) true]
        else [] := by
  rw [litCells, List.filterMap_flatMap, List.map_flatMap]
  refine List.flatMap_congr fun i _ => ?_
  rw [List.filterMap_map, List.filterMap_filter, List.map_filterMap, List.filterMap_eq_flatMap_toList]
  refine List.flatMap_congr fun j _ => ?_
  cases lit i j with
  | false => simp
  | true =>
    simp only [if_true, Function.comp_apply, cellWord_decode, true_and]
    split_ifs <;> rfl

/-- Settles O53: the words are those of the glyph's cells, row by row. -/
theorem drawGlyphREmitsItsCells : Obligations.DrawGlyphREmitsItsCells := by
  refine fun s x y g => ⟨glyphWords x y (.rowMajor g), rfl, ?_⟩
  rw [glyphWords_eq_cells]
  exact litCells_decode (GlyphR.cell g) fun r c => (x + c.val, y + r.val)

/-- Settles O54: the words are those of the glyph's cells, column by column. -/
theorem drawGlyphCEmitsItsCells : Obligations.DrawGlyphCEmitsItsCells := by
  refine fun s x y g => ⟨glyphWords x y (.colMajor g), rfl, ?_⟩
  simp only [glyphWords_eq_cells, ← GlyphC.cell_iff]
  exact litCells_decode (GlyphC.cell g) fun c r => (x + c.val, y + r.val)

/-! ## Texts -/

/-- A font with its default glyph answers every character (R235). -/
theorem fontLookup_isSome (font : Font) (ch : Char) : (fontLookup font ch).isSome = font.hasDefault := by
  cases font with
  | rowMajor | colMajor => exact Option.isSome_map

theorem exec_drawText (h : font.hasDefault = true) :
    exec (.drawText text x y font spacing) s = .next (s.emitWords (textWords font spacing y x text)) := by
  simp [exec, execDrawText, h]

/-- The words of a text are its first glyph's at the cursor, then those of the rest (R234). -/
theorem textWords_cons {g : Glyph} (h : fontLookup font ch = some g) :
    textWords font spacing y x (ch :: text) = glyphWords x y g ++ textWords font spacing y (x + 5 + spacing) text := by
  rw [textWords, h]
  rfl

/-- Settles O56, from the words of the empty text and of a longer one. -/
theorem drawTextAdvancesTheCursor : Obligations.DrawTextAdvancesTheCursor := by
  refine fun s x y font spacing hfont => ⟨exec_drawText hfont, fun ch rest => ?_⟩
  obtain ⟨g, hg⟩ := Option.isSome_iff_exists.1 ((fontLookup_isSome font ch).trans hfont)
  refine ⟨g, (textWords font spacing y (x + 5 + spacing) rest).map .word, exec_lookup_some hg,
    exec_drawText hfont, ?_⟩
  rw [exec_drawText hfont, textWords_cons hg, State.emitWords, List.map_append]
  cases g with
  | rowMajor | colMajor => rfl

end Sys2Proof.Machine
end

section
/-! Proofs. A glyph only sets bits (R233): run in READY, the words of a list of cells set the pixels at these cells and
leave every other pixel. -/

namespace Sys2Proof.Machine
variable {s t u : State} {cells : List (Int × Int)} {p : Int × Int}

/-! ## Pixels -/

theorem mapXY_injective {c : Cfg} {x y x' y' : Int} {i bit : Nat} (h : mapXY c x y = some (i, bit))
    (h' : mapXY c x' y' = some (i, bit)) : (x, y) = (x', y') :=
  (unmapXY_mapXY h).trans (unmapXY_mapXY h').symm

/-- A coordinate that does not fit its field is out of range, so that clipping a cell loses no pixel (R231). -/
theorem fitsS12_of_inRange {c : Cfg} {x y : Int} (h : inRange c x y = true) :
    fitsS12 x = true ∧ fitsS12 y = true := by
  obtain ⟨hx, hy⟩ := inRange_iff.1 h
  have hwidth := c.width_le
  have hpages := c.pages_le
  have hheight := c.height_eq
  rw [fitsS12_iff, fitsS12_iff]
  omega

theorem pix_eq_none {x y : Int} (h : mapXY s.cfg x y = none) : s.pix x y = none := by
  simp [State.pix, h]

/-- Every in-range pixel of a framebuffer that has been written everywhere has a value (R185). -/
theorem exists_pix_of_full {x y : Int} (hfull : Memory.full s.cfg.fbSize s.fb = true) (hr : inRange s.cfg x y = true) :
    ∃ v, s.pix x y = some v := by
  obtain ⟨⟨i, bit⟩, hm⟩ := Option.isSome_iff_exists.1 (mapXY_isSome_iff.2 (inRange_iff.1 hr))
  obtain ⟨b, hb⟩ := Memory.read_of_full hfull (mapXY_lt hm).1
  exact ⟨_, pix_eq_some hm hb⟩

/-! ## Setting pixels -/

/-- `t` is READY and its framebuffer is written everywhere, and its pixels are those of `s` with the pixels at `cells`
set. -/
structure SetsPixels (cells : List (Int × Int)) (s t : State) : Prop where
  ready : t.life = .ready
  full : Memory.full t.cfg.fbSize t.fb = true
  cfg : t.cfg = s.cfg
  pix : ∀ x y, t.pix x y = (s.pix x y).map (· || decide ((x, y) ∈ cells))

theorem SetsPixels.nil (hl : s.life = .ready) (hfull : Memory.full s.cfg.fbSize s.fb = true) : SetsPixels [] s s :=
  ⟨hl, hfull, rfl, fun x y => by simp⟩

/-- First one cell, then the others. -/
theorem SetsPixels.cons (h : SetsPixels [p] s t) (h' : SetsPixels cells t u) : SetsPixels (p :: cells) s u where
  ready := h'.ready
  full := h'.full
  cfg := h'.cfg.trans h.cfg
  pix x y := by
    rw [h'.pix, h.pix, Option.map_map]
    congr 1
    funext old
    simp [Bool.or_assoc]

/-- A cell out of range is no pixel, so there is nothing to set. -/
theorem SetsPixels.of_outOfRange (hl : t.life = .ready) (hfull : Memory.full t.cfg.fbSize t.fb = true)
    (hcfg : t.cfg = s.cfg) (hfb : t.fb = s.fb) (hm : mapXY s.cfg p.1 p.2 = none) : SetsPixels [p] s t where
  ready := hl
  full := hfull
  cfg := hcfg
  pix x y := by
    have hsame : t.pix x y = s.pix x y := by simp only [State.pix, State.readFb, hcfg, hfb]
    rw [hsame]
    by_cases hp : (x, y) = p
    · subst hp
      rw [pix_eq_none hm]
      rfl
    · simp [hp]

/-- BITWRITE of 1 to the byte and bit of a cell sets the pixel at the cell and no other (R182). -/
theorem SetsPixels.of_bitWrite {i bit : Nat} {b : Byte} (hl : s.life = .ready)
    (hfull : Memory.full s.cfg.fbSize s.fb = true) (hm : mapXY s.cfg p.1 p.2 = some (i, bit))
    (hb : s.readFb i = .ok b) :
    SetsPixels [p] s ({ s with fb := s.fb.put i (bitWriteByte b bit true) }.respond .ok 0) where
  ready := hl
  full := Memory.full_put hfull
  cfg := rfl
  pix x y := by
    set t := { s with fb := s.fb.put i (bitWriteByte b bit true) }.respond .ok 0
    obtain ⟨hi, hbit⟩ := mapXY_lt hm
    cases hxy : mapXY s.cfg x y with
    | none =>
      have hxyt : mapXY t.cfg x y = none := hxy
      rw [pix_eq_none hxy, pix_eq_none hxyt]
      rfl
    | some q =>
      obtain ⟨j, k⟩ := q
      have hxyt : mapXY t.cfg x y = some (j, k) := hxy
      have hsame (hp : (x, y) = p) : (j, k) = (i, bit) := by
        subst hp
        exact Option.some.inj (hxy.symm.trans hm)
      by_cases hj : j = i
      · subst hj
        have hread : t.readFb j = .ok (bitWriteByte b bit true) := Memory.read_put_self s.fb _ hi
        have hpixel : (x, y) = p ↔ k = bit :=
          ⟨fun hp => congrArg Prod.snd (hsame hp), fun hk => mapXY_injective hxy (hk ▸ hm)⟩
        rw [pix_eq_some hxy hb, pix_eq_some hxyt hread, bit_bitWriteByte b bit hbit]
        by_cases hk : k = bit
        · simp [hpixel, hk]
        · simp [hpixel, hk]
      · have hread : t.readFb j = s.readFb j := Memory.read_put_ne s.fb _ hj
        have hpixel : (x, y) ≠ p := fun hp => hj (congrArg Prod.fst (hsame hp))
        simp [State.pix, hxy, hxyt, hread, hpixel]

/-! ## Running the words -/

theorem runWords_cons {w : Word} {ws : List Word} (h : exec (decodeWord w) s = .next t) :
    runWords (w :: ws) s = runWords ws t := by
  simp [runWords, h]

/-- A cell's word sets the pixel at the cell, if it is in range. -/
theorem exec_cellWord {w : Word} (hl : s.life = .ready) (hfull : Memory.full s.cfg.fbSize s.fb = true)
    (hw : cellWord p = some w) : ∃ t, exec (decodeWord w) s = .next t ∧ SetsPixels [p] s t := by
  obtain ⟨⟨hfitsx, hfitsy⟩, rfl⟩ := setpixWord_eq_some.1 hw
  have hx := toInt_ofInt_of_fitsS12 hfitsx
  have hy := toInt_ofInt_of_fitsS12 hfitsy
  rw [decodeWord_wordP]
  cases hm : mapXY s.cfg p.1 p.2 with
  | none => exact ⟨_, exec_setpix_outOfRange hl (by rw [hx, hy, hm]), .of_outOfRange hl hfull rfl rfl hm⟩
  | some q =>
    obtain ⟨i, bit⟩ := q
    obtain ⟨b, hb⟩ := Memory.read_of_full hfull (mapXY_lt hm).1
    exact ⟨_, exec_setpix_inRange hl (by rw [hx, hy, hm]) hb, .of_bitWrite hl hfull hm hb⟩

/-- A clipped cell is out of range. -/
theorem mapXY_of_cellWord_none {c : Cfg} (hw : cellWord p = none) : mapXY c p.1 p.2 = none := by
  have hclipped : ¬ inRange c p.1 p.2 = true := fun hr => by
    have hsome : cellWord p = some _ := setpixWord_eq_some.2 ⟨fitsS12_of_inRange hr, rfl⟩
    simp [hw] at hsome
  simp [mapXY, hclipped]

/-- By induction over the cells, a clipped one emitting no word. -/
theorem runWords_cells (hl : s.life = .ready) (hfull : Memory.full s.cfg.fbSize s.fb = true) :
    ∃ t, runWords (cells.filterMap cellWord) s = .next t ∧ SetsPixels cells s t := by
  induction cells generalizing s with
  | nil => exact ⟨s, rfl, .nil hl hfull⟩
  | cons p cells ih =>
    cases hw : cellWord p with
    | none =>
      obtain ⟨u, hu, hset⟩ := ih hl hfull
      rw [List.filterMap_cons_none hw]
      exact ⟨u, hu, .cons (.of_outOfRange hl hfull rfl rfl (mapXY_of_cellWord_none hw)) hset⟩
    | some w =>
      obtain ⟨t, ht, hp⟩ := exec_cellWord hl hfull hw
      obtain ⟨u, hu, hset⟩ := ih hp.ready hp.full
      rw [List.filterMap_cons_some hw, runWords_cons ht]
      exact ⟨u, hu, hp.cons hset⟩

/-- Settles O55: the glyph's words are those of its cells, and running them sets the pixels at these cells. -/
theorem glyphOnlySetsBits : Obligations.GlyphOnlySetsBits := by
  intro s x y gl hl hfull
  obtain ⟨t, ht, hset⟩ := runWords_cells (cells := glyphCells x y gl) hl hfull
  rw [← glyphWords_eq_cells] at ht
  refine ⟨t, ht, fun px py hr => ?_⟩
  obtain ⟨old, hold⟩ := exists_pix_of_full hfull hr
  refine ⟨old, hold, old || decide ((px, py) ∈ glyphCells x y gl), by rw [hset.pix, hold]; rfl, ?_⟩
  rw [Bool.or_eq_true, decide_eq_true_iff]
  refine or_congr_right ?_
  cases gl with
  | rowMajor g =>
    simp only [glyphCells, mem_litCells, Prod.mk.injEq]
    rfl
  | colMajor g => simp only [glyphCells, mem_litCells, GlyphC.cell_iff, Prod.mk.injEq]

end Sys2Proof.Machine
end

section
/-! Proofs. The state checks that come before any effect (R251), and the illegal words (R88, R252, R258). -/

namespace Sys2Proof.Machine
variable {s : State}

/-- Outside READY, SHOW only answers NOT_READY (R251). -/
theorem exec_showFrame_notReady (hl : s.life ≠ .ready) : exec .showFrame s = .next (s.respond .notReady 0) := by
  cases h : s.life with
  | ready => exact absurd h hl
  | uninit | initializing | failed => simp [exec, execShow, h]

/-- Outside UNINIT, INIT only answers BAD_STATE (R251). -/
theorem exec_init_badState (hl : s.life ≠ .uninit) : exec .init s = .next (s.respond .badState 0) := by
  cases h : s.life with
  | uninit => exact absurd h hl
  | initializing | ready | failed => simp [exec, execInit, h]

/-- Settles O11, from the equation of each operation outside its state. -/
theorem stateChecksHaveNoEffect : Obligations.StateChecksHaveNoEffect := fun _ =>
  ⟨fun hl => ⟨fun _ _ _ => exec_setpix_notReady hl, fun _ => exec_fill_notReady hl, exec_showFrame_notReady hl,
    fun _ => exec_rdfb_notReady hl⟩, exec_init_badState⟩

/-- What decodes to an illegal word is one: the decoder makes encodable instructions only. -/
theorem wordIllegal_of_decodeWord {w w' : Word} (h : decodeWord w = .illegal w') : wordIllegal w' = true := by
  obtain ⟨hencodable, -⟩ := encode_decodeWord w
  rw [h] at hencodable
  exact hencodable

/-- Settles O5: the decoder's illegal words are R88's in both directions, and their meaning is the response. -/
theorem illegalWordHasNoEffect : Obligations.IllegalWordHasNoEffect := by
  refine fun w s => ⟨⟨wordIllegal_of_decodeWord, decodeWord_of_wordIllegal⟩, fun h => ?_⟩
  rw [decodeWord_of_wordIllegal h]
  rfl

end Sys2Proof.Machine
end

section
/-! Proofs. A failed bus write ends the running operation (R254, R255): the release of the lock, then the catch. -/

namespace Sys2Proof.Machine
variable {s : State}

/-- The catch in one equation (R255 steps 3 and 4): INIT goes to FAILED, SHOW leaves `STATE` alone. -/
theorem catchBusFail_eq (s : State) : s.catchBusFail =
    answered { s with life := if s.life = .initializing then .failed else s.life } 0x40000000#32 := by
  cases s with
  | mk cfg life => cases life <;> rfl

theorem step_catchFail {rest : List SeqItem} (hs : s.seq = .catchFail :: rest) :
    step s = .next (answered { s with life := if s.life = .initializing then .failed else s.life } 0x40000000#32) :=
  (step_cons hs).trans (congrArg Host.Outcome.next (catchBusFail_eq { s with seq := rest }))

/-- What BusFail leaves pending, the release of the held lock and the catch, runs in two steps. -/
theorem run_raiseBusFail (hl : s.lockHeld = true) :
    Sys2Proof.core.run 2 s.raiseBusFail = .next (answered { s with
      life := if s.life = .initializing then .failed else s.life
      lockHeld := false
      trace := s.trace ++ [.rel] } 0x40000000#32) :=
  (run_succ (step_lockRelease (s := s.raiseBusFail) hl rfl)).trans (run_succ (step_catchFail rfl))

/-- Settles O38: the failing transaction (O29, O30) leaves the release and the catch, and these two steps end it. -/
theorem busFailureEndsTheOperation : Obligations.BusFailureEndsTheOperation := by
  intro s i w hl ha hi
  have hfail : exec i s = .next (s.busDrawn.emit (.wr s.cfg.addr w .fail)).raiseBusFail := by
    rcases hi with ⟨cmd, hc, rfl, rfl⟩ | ⟨chunk, ⟨hlo, hhi⟩, rfl, rfl⟩
    · exact (commandTransactionIsOneWrite _ s cmd (.inr rfl) hl hc).2 ha
    · exact (dataTransactionIsOneWrite _ s chunk (.inr rfl) hl hlo hhi).2 ha
  rw [List.append_cons s.trace]
  exact ⟨_, hfail, run_raiseBusFail (by exact hl)⟩

end Sys2Proof.Machine
end

section
/-! Proofs. Progress: in a state that meets the invariant, with a host program that the host can issue, there is a next
state, and the rest of the host's program can be issued again. -/

namespace Sys2Proof.Machine
variable {s t : State}

/-! ## The host's program -/

theorem hostOk_cons {item : HostItem} {rest : List HostItem} (hh : s.host = item :: rest) :
    hostOk s = true ↔ item.ok = true ∧ hostOk { s with host := rest } = true := by
  simp [hostOk, hh]

theorem hostOk_of_host_eq (h : hostOk s = true) (ht : t.host = s.host) : hostOk t = true := by
  rw [hostOk, ht]
  exact h

/-- Words can always be issued. -/
theorem hostOk_emitWords (ws : List Word) (h : hostOk s = true) : hostOk (s.emitWords ws) = true := by
  simpa [hostOk, HostItem.ok] using h

/-- A pseudo-operation puts words, or its own next try, in front of the host's program, or leaves it alone. -/
theorem exec_pseudo_keeps_hostOk {p : PseudoOp} (h : hostOk s = true) (he : exec p.toInstr s = .next t) :
    hostOk t = true := by
  cases p with
  | drawGlyphR | drawGlyphC => cases he; exact hostOk_emitWords _ h
  | drawText text x y font spacing =>
    simp only [PseudoOp.toInstr, exec, execDrawText] at he
    split_ifs at he
    cases he
    exact hostOk_emitWords _ h
  | lookup font ch =>
    cases hg : fontLookup font ch with
    | some g => cases he.symm.trans (exec_lookup_some hg); exact h
    | none => cases he.symm.trans (exec_lookup_none hg)
  | centerX => cases he; exact h
  | probeLock timeout =>
    simp only [PseudoOp.toInstr, exec, execProbeLock] at he
    split_ifs at he <;> cases he
    · exact h
    · exact h
    · exact (hostOk_cons rfl).2 ⟨rfl, h⟩

theorem exec_keeps_hostOk {i : Instr} (h : hostOk s = true) (he : exec i s = .next t) : hostOk t = true := by
  by_cases hp : ∃ p : PseudoOp, i = p.toInstr
  · obtain ⟨p, rfl⟩ := hp
    exact exec_pseudo_keeps_hostOk h he
  · exact hostOk_of_host_eq h (exec_host he (not_exists.1 hp))

theorem step_keeps_hostOk (h : hostOk s = true) (hst : step s = .next t) : hostOk t = true := by
  cases step_effect hst with
  | waits | zeroes | flushes => exact h
  | presents w rest _ hh => exact ((hostOk_cons hh).1 h).2
  | expands p rest _ hh he => exact exec_pseudo_keeps_hostOk ((hostOk_cons hh).1 h).2 he
  | fetches _ _ he | runs _ _ _ he => exact exec_keeps_hostOk (by exact h) he
  | completes rest =>
    obtain ⟨-, -, -, -, -, -, -, -, -, hhost, -⟩ := completeOp_frame { s with seq := rest }
    exact hostOk_of_host_eq h hhost
  | catches rest =>
    obtain ⟨-, -, -, -, -, -, -, -, -, hhost, -⟩ := catchBusFail_frame { s with seq := rest }
    exact hostOk_of_host_eq h hhost

/-! ## Instructions that go on -/

/-- A well-formed pseudo-operation goes on: its font has its default glyph (R235). -/
theorem exists_exec_pseudo {p : PseudoOp} (hp : p.wellFormed = true) (s : State) :
    ∃ t, exec p.toInstr s = .next t := by
  cases p with
  | drawText => exact ⟨_, exec_drawText hp⟩
  | lookup font ch =>
    obtain ⟨g, hg⟩ := Option.isSome_iff_exists.1 ((fontLookup_isSome font ch).trans hp)
    exact ⟨_, exec_lookup_some hg⟩
  | drawGlyphR | drawGlyphC | centerX | probeLock => exact ⟨_, rfl⟩

/-- A host operation goes on, if every framebuffer byte can be read in READY (R251, R183, R188). -/
theorem exists_exec_hostOp {i : Instr} (hi : hostOp i = true)
    (hfull : s.life = .ready → Memory.full s.cfg.fbSize s.fb = true) : ∃ t, exec i s = .next t := by
  cases i with
  | init =>
    by_cases hl : s.life = .uninit
    · exact ⟨_, exec_init_uninit hl⟩
    · exact ⟨_, exec_init_badState hl⟩
  | setpix x y v =>
    by_cases hl : s.life = .ready
    · cases hm : mapXY s.cfg x.toInt y.toInt with
      | none => exact ⟨_, exec_setpix_outOfRange hl hm⟩
      | some p =>
        obtain ⟨index, bit⟩ := p
        obtain ⟨b, hb⟩ := Memory.read_of_full (hfull hl) (mapXY_lt hm).1
        exact ⟨_, exec_setpix_inRange hl hm hb⟩
    · exact ⟨_, exec_setpix_notReady hl⟩
  | fill v =>
    by_cases hl : s.life = .ready
    · exact ⟨_, exec_fill_ready hl⟩
    · exact ⟨_, exec_fill_notReady hl⟩
  | showFrame =>
    by_cases hl : s.life = .ready
    · exact ⟨_, exec_showFrame_ready hl⟩
    · exact ⟨_, exec_showFrame_notReady hl⟩
  | rdfb index =>
    by_cases hl : s.life = .ready
    · rcases Nat.lt_or_ge index.toNat s.cfg.fbSize with hlt | hge
      · obtain ⟨b, hb⟩ := Memory.read_of_full (hfull hl) hlt
        exact ⟨_, exec_rdfb_read hl hb⟩
      · exact ⟨_, exec_rdfb_range hl hge⟩
    · exact ⟨_, exec_rdfb_notReady hl⟩
  | rdstat | illegal => exact ⟨_, rfl⟩
  | _ => cases hi

theorem exists_exec_lockAcquire (hfree : s.lockHeld = false) : ∃ t, exec .lockAcquire s = .next t := by
  cases ha : s.lockAnswer with
  | true => exact ⟨_, exec_lockAcquire_granted hfree ha⟩
  | false => exact ⟨_, exec_lockAcquire_denied hfree ha⟩

theorem exists_sendCommandBytes {cmd : List Byte} (hl : s.lockHeld = true) (hc : commandBytesOk cmd = true) :
    ∃ t, sendCommandBytes cmd s = .next t :=
  ⟨_, (if_pos hc).trans (sendTransaction_held hl)⟩

theorem exists_sendChunk {chunk : List Byte} (hl : s.lockHeld = true) (hc : chunkOk chunk = true) :
    ∃ t, sendChunk chunk s = .next t :=
  ⟨_, (if_pos hc).trans (sendTransaction_held hl)⟩

/-- An instruction that is encoded as command bytes is a controller command (R94), and its one or two bytes are sent. -/
theorem exists_exec_of_encode_command {i : Instr} {bytes : List Byte} (hi : i.encodable = true)
    (he : encode i = some (.command bytes)) (hl : s.lockHeld = true) : ∃ t, exec i s = .next t := by
  obtain ⟨k, -, rfl⟩ := exists_of_map_eq_ok (decodeOfEncodeIsIdentity i _ hi he)
  exact ⟨_, (exec_command k s).trans (emitCommand_eq_transact hl (Command.bytes_shape k))⟩

/-- A well-formed micro-operation of a lock group goes on while the lock is held. The cases not named are the controller
commands, which are encoded as their bytes. -/
theorem exists_exec_inGroup {i : Instr} (hi : inGroup i = true) (hw : i.wellFormed s.cfg = true)
    (hl : s.lockHeld = true) : ∃ t, exec i s = .next t := by
  cases i with
  | ctrlCmd | txCmd => exact exists_sendCommandBytes hl hw
  | ctrlData | txData => exact exists_sendChunk hl hw
  | emitCmd => exact ⟨_, emitCommand_eq_transact hl (oneCommand_shape hw)⟩
  | wait => exact ⟨_, if_pos (of_decide_eq_true hw)⟩
  | rstDirOut => exact ⟨_, exec_rstDirOut_line hw⟩
  | rstSet level => exact ⟨_, exec_rstSet_line hw level⟩
  | init | setpix | fill | showFrame | rdfb | rdstat | illegal => cases hi
  | lockAcquire | lockRelease | withLock => cases hi
  | drawGlyphR | drawGlyphC | drawText | lookup | centerX | probeLock => cases hi
  | _ => exact exists_exec_of_encode_command rfl rfl hl

/-! ## Steps that go on -/

/-- A pending instruction fits the lock and is well formed, so it goes on. -/
theorem Invariant.exists_exec {i : Instr} {rest : List SeqItem} (h : Invariant s) (hs : s.seq = .op i :: rest) :
    ∃ t, exec i { s with seq := rest } = .next t := by
  rcases seqOk_op (h.seqOk_cons hs) with
    ⟨rfl, hfree, -⟩ | ⟨rfl, hheld, -⟩ | ⟨body, rfl, -, -, -⟩ | ⟨hg, hheld, hw, -⟩
  · exact exists_exec_lockAcquire hfree
  · exact ⟨_, exec_lockRelease_held hheld⟩
  · exact ⟨_, rfl⟩
  · exact exists_exec_inGroup hg hw hheld

/-- With nothing pending and nothing in the host's program the block waits (R280). -/
theorem step_idle (hs : s.seq = []) (hh : s.host = []) : step s = .next s := by
  simp [step, advance, hostTurn, hs, hh]

/-- The host's turn goes on: `BUSY` is 0 while the block is idle. -/
theorem Invariant.exists_hostStep (h : Invariant s) (hok : hostOk s = true) (hs : s.seq = []) :
    ∃ t, step s = .next t := by
  cases hh : s.host with
  | nil => exact ⟨s, step_idle hs hh⟩
  | cons item rest =>
    cases item with
    | word w =>
      have hidle : s.busy = false := by rw [h.busySeq, hs]; rfl
      exact ⟨_, (step_word hs hh).trans (hostWrite_idle hidle)⟩
    | call p => rw [step_call hs hh]; exact exists_exec_pseudo ((hostOk_cons hh).1 hok).1 _

theorem Invariant.exists_step (h : Invariant s) (hok : hostOk s = true) : ∃ t, step s = .next t := by
  cases hs : s.seq with
  | nil => exact h.exists_hostStep hok hs
  | cons item rest =>
    rw [step_cons hs]
    cases item with
    | fetch => exact exists_exec_hostOp (hostOp_decodeWord s.req) h.readyFull
    | op i => exact h.exists_exec hs
    | flush =>
      have hfull : Memory.full s.cfg.fbSize s.fb = true := h.seqFull (by rw [hs]; rfl)
      rw [runItem, Memory.dump_of_full hfull]
      exact ⟨_, rfl⟩
    | zeroFill | complete | catchFail => exact ⟨_, rfl⟩

/-- Settles O46: the invariant gives the next state, and every step keeps the host's program well formed. -/
theorem invStatesNeverStop : Obligations.InvStatesNeverStop := fun _ h hok =>
  (h.exists_step hok).imp fun _ hst => ⟨hst, step_keeps_hostOk hok hst⟩

end Sys2Proof.Machine
end

section
/-! Proofs. The idle block (R280, R267). -/

namespace Sys2Proof.Machine

/-- Settles O10, which is the host's turn with an empty program. -/
theorem idleBlockWaits : Obligations.IdleBlockWaits := fun _ => step_idle

end Sys2Proof.Machine
end
